-- ==== Sys2Proof/Word.lean ====
section
/-! DEFINITION. The word types of the engine (spec/00_scope.md R6, R7): every quantity is an unsigned
bit vector of a fixed width. -/

namespace Sys2Proof

/-- A byte: a stream byte, a key byte, a LANE field (R6, R71). -/
abbrev Byte := BitVec 8

/-- A 32-bit word: a mixing word, a tag, a block, a response word, a DATA field (R6, R184). -/
abbrev Word := BitVec 32

/-- A 64-bit command word (30_encoding.md R70). -/
abbrev CmdWord := BitVec 64

end Sys2Proof
end

