-- ==== Sys2Proof/Config.lean ====
section
/-! DEFINITION. The implementation parameters of spec/00_scope.md R1 to R4 and 60_exceptions.md R185. The bounds
stand in the structure as proofs, so a configuration the spec refuses cannot be built
(93_implementation_defined.md U10, U11, P4). -/

namespace Sys2Proof

/-- The parameters fixed when the engine is built (R35). -/
structure Config where
  /-- `K`, the number of key slots, lanes and tag registers (R1). -/
  k : Nat
  /-- `LOG2M`: the bit array has `M = 2^LOG2M` bits (R2). -/
  log2m : Nat
  /-- `C`, compression rounds per block (R3). -/
  c : Nat
  /-- `D`, finalization rounds (R4). -/
  d : Nat
  /-- `RESP_DEPTH`; `none` is the unbounded stream that R185 allows a model to take. -/
  respDepth : Option Nat
  kBounds : 1 ≤ k ∧ k ≤ 256
  log2mBound : log2m ≤ 32
  cBound : 1 ≤ c
  dBound : 1 ≤ d
  respBound : 2 ≤ respDepth.getD 2
  deriving DecidableEq, Repr

/-- `M`, the number of bits of the bit array (R2). -/
def Config.m (cfg : Config) : Nat := 2 ^ cfg.log2m

/-- The configuration of `State.reset`: `HSIP-BF(K=2, M=2^8, C=2, D=4)`, the one 00_scope.md section 1 writes
out as its example, with the unbounded response stream of R185. DESIGN CHOICE (log 1): the spec leaves the
parameters open. Unsafe only for a statement about `State.reset` itself. -/
def Config.specExample : Config where
  k := 2
  log2m := 8
  c := 2
  d := 4
  respDepth := none
  kBounds := by decide
  log2mBound := by decide
  cBound := by decide
  dBound := by decide
  respBound := by decide

end Sys2Proof
end

