-- ==== Sys2Proof/Syntax.lean ====
section
/-! DEFINITION. The command set HSBF-CMD v1 as syntax: one constructor of `Instr` per row of
spec/opcode_table.json (30_encoding.md R77), with the operand fields of R76. -/

namespace Sys2Proof

/-- The 15 assigned opcodes by name (30_encoding.md R77). -/
inductive Op where
  | nop | status
  | hinit | hdata | hfinal
  | twr | trd | badd | btest | bclear
  | kwr | kinit | kdata | kadd | ktest
  deriving DecidableEq, Repr

/-- The `H` field of KWR: which half of a key slot (30_encoding.md R73). -/
inductive Half where
  /-- `H = 0`: key bytes 0 to 3 of the slot. -/
  | first
  /-- `H = 1`: key bytes 4 to 7 of the slot. -/
  | second
  deriving DecidableEq, Repr

/-- A command with its operand fields (30_encoding.md R71 to R76). -/
inductive Instr where
  /-- no operation (43_system.md R160) -/
  | nop
  /-- push the status word and the fault index (43_system.md R161) -/
  | status
  /-- initialize one lane from its key slot (40_keyed_stream_hash.md R100) -/
  | hinit (lane : Byte)
  /-- absorb a chunk of `n` bytes into one lane (R101) -/
  | hdata (lane : Byte) (n : BitVec 3) (data : Word)
  /-- finalize one lane, write and push its tag (R102) -/
  | hfinal (lane : Byte)
  /-- write a tag register (41_bit_filter.md R121) -/
  | twr (lane : Byte) (data : Word)
  /-- read a tag register to the response stream (R122) -/
  | trd (lane : Byte)
  /-- set the bits the tag registers select (R123) -/
  | badd
  /-- test the bits the tag registers select (R124) -/
  | btest
  /-- clear the bit array (R125) -/
  | bclear
  /-- write one half of a key slot (42_keyed_bit_filter.md R141) -/
  | kwr (slot : Byte) (h : Half) (data : Word)
  /-- initialize every lane (R142) -/
  | kinit
  /-- absorb a chunk into every lane (R143) -/
  | kdata (n : BitVec 3) (data : Word)
  /-- finalize every lane, write the tags, set their bits (R144) -/
  | kadd
  /-- finalize every lane, write the tags, test their bits (R145) -/
  | ktest
  deriving DecidableEq, Repr

/-- The fault causes of 60_exceptions.md R171, by name. Code 0, no fault, is no cause. -/
inductive Cause where
  | illegalOpcode | reservedNonzero | laneRange | badCount | keyUnwritten | laneNotActive | tagUnwritten
  deriving DecidableEq, Repr

/-- What decoding a word gives: a command, or a fault verdict `(cause, lane)` (30_encoding.md R78). -/
inductive Decoded where
  | op (i : Instr)
  | fault (cause : Cause) (lane : Byte)
  deriving DecidableEq, Repr

end Sys2Proof
end

