-- ==== Sys2Proof/WellFormed.lean ====
section
/-! DEFINITION. Which commands a decoder can answer: the operand checks of 30_encoding.md R71, R72 and R75, for an
engine of `k` lanes. -/

namespace Sys2Proof

/-- `LANE < K` (R71). -/
def laneInRange (k : Nat) (lane : Byte) : Bool := decide (lane.toNat < k)

/-- `N` in `0..4` (R72). -/
def countLegal (n : BitVec 3) : Bool := decide (n.toNat ≤ 4)

/-- `DATA[31:8N] = 0`: no data above the chunk (R75). For `N >= 4` there is nothing above it. -/
def chunkClean (n : BitVec 3) (data : Word) : Bool := data >>> (8 * n.toNat) == 0#32

/-- The operands of a command are the ones its fields may hold. -/
def Instr.wf (k : Nat) : Instr → Bool
  | .nop => true
  | .status => true
  | .hinit lane => laneInRange k lane
  | .hdata lane n data => laneInRange k lane && countLegal n && chunkClean n data
  | .hfinal lane => laneInRange k lane
  | .twr lane _ => laneInRange k lane
  | .trd lane => laneInRange k lane
  | .badd => true
  | .btest => true
  | .bclear => true
  | .kwr slot _ _ => laneInRange k slot
  | .kinit => true
  | .kdata n data => countLegal n && chunkClean n data
  | .kadd => true
  | .ktest => true

/-- A well-formed command of an engine with `k` lanes. -/
abbrev Instr.WellFormed (k : Nat) (i : Instr) : Prop := i.wf k = true

end Sys2Proof
end

