-- ==== Sys2Proof/Decode.lean ====
section
/-! DEFINITION. The command encoding of spec/30_encoding.md: the opcode map (R77), the fields (R70), the decoder
(R78) and, after it, the encoder, written from the same tables. -/

namespace Sys2Proof

/-- The OP code of an opcode (R77). -/
def Op.code : Op → Byte
  | .nop => 0x00
  | .status => 0x01
  | .hinit => 0x10
  | .hdata => 0x11
  | .hfinal => 0x12
  | .twr => 0x20
  | .trd => 0x21
  | .badd => 0x22
  | .btest => 0x23
  | .bclear => 0x24
  | .kwr => 0x30
  | .kinit => 0x31
  | .kdata => 0x32
  | .kadd => 0x33
  | .ktest => 0x34

/-- The opcode an OP code names; `none` for every unassigned code (R77, R79). -/
def Op.ofCode? (b : Byte) : Option Op :=
  match b.toNat with
  | 0x00 => some .nop
  | 0x01 => some .status
  | 0x10 => some .hinit
  | 0x11 => some .hdata
  | 0x12 => some .hfinal
  | 0x20 => some .twr
  | 0x21 => some .trd
  | 0x22 => some .badd
  | 0x23 => some .btest
  | 0x24 => some .bclear
  | 0x30 => some .kwr
  | 0x31 => some .kinit
  | 0x32 => some .kdata
  | 0x33 => some .kadd
  | 0x34 => some .ktest
  | _ => none

/-- The opcode of a command. -/
def Instr.op : Instr → Op
  | .nop => .nop
  | .status => .status
  | .hinit _ => .hinit
  | .hdata _ _ _ => .hdata
  | .hfinal _ => .hfinal
  | .twr _ _ => .twr
  | .trd _ => .trd
  | .badd => .badd
  | .btest => .btest
  | .bclear => .bclear
  | .kwr _ _ _ => .kwr
  | .kinit => .kinit
  | .kdata _ _ => .kdata
  | .kadd => .kadd
  | .ktest => .ktest

/-- The `CAUSE` code of a fault cause (60_exceptions.md R171). -/
def Cause.code : Cause → BitVec 4
  | .illegalOpcode => 1
  | .reservedNonzero => 2
  | .laneRange => 3
  | .badCount => 4
  | .keyUnwritten => 5
  | .laneNotActive => 6
  | .tagUnwritten => 7

/-! ### Field use by opcode (R76) -/

/-- The opcode has a LANE operand. -/
def Op.usesLane : Op → Bool
  | .hinit | .hdata | .hfinal | .twr | .trd | .kwr => true
  | .nop | .status | .badd | .btest | .bclear | .kinit | .kdata | .kadd | .ktest => false

/-- The opcode has an H operand. -/
def Op.usesH : Op → Bool
  | .kwr => true
  | .nop | .status | .hinit | .hdata | .hfinal | .twr | .trd | .badd | .btest | .bclear
  | .kinit | .kdata | .kadd | .ktest => false

/-- The opcode has an N operand. -/
def Op.usesN : Op → Bool
  | .hdata | .kdata => true
  | .nop | .status | .hinit | .hfinal | .twr | .trd | .badd | .btest | .bclear | .kwr
  | .kinit | .kadd | .ktest => false

/-- The opcode has a DATA operand. -/
def Op.usesData : Op → Bool
  | .hdata | .twr | .kwr | .kdata => true
  | .nop | .status | .hinit | .hfinal | .trd | .badd | .btest | .bclear | .kinit | .kadd | .ktest => false

/-! ### The fields of a command word (R70) -/

def opField (w : CmdWord) : Byte := w.extractLsb' 56 8
def laneField (w : CmdWord) : Byte := w.extractLsb' 48 8
def rsvAField (w : CmdWord) : BitVec 4 := w.extractLsb' 44 4
def hField (w : CmdWord) : BitVec 1 := w.extractLsb' 43 1
def nField (w : CmdWord) : BitVec 3 := w.extractLsb' 40 3
def rsvBField (w : CmdWord) : Byte := w.extractLsb' 32 8
def dataField (w : CmdWord) : Word := w.extractLsb' 0 32

/-- The half an H bit selects (R73). -/
def Half.ofBit (b : BitVec 1) : Half := if b = 0 then .first else .second

/-- The H bit of a half (R73). -/
def Half.bit : Half → BitVec 1
  | .first => 0
  | .second => 1

/-! ### Decode (R78) -/

/-- Step 2 of R78: a reserved field, or a field the opcode does not use, is not zero. -/
def reservedSet (op : Op) (w : CmdWord) : Bool :=
  rsvAField w != 0 || rsvBField w != 0
    || (!op.usesLane && laneField w != 0)
    || (!op.usesH && hField w != 0)
    || (!op.usesN && nField w != 0)
    || (!op.usesData && dataField w != 0)

/-- The command an opcode and a word's fields make, before the operand checks. -/
def assemble (op : Op) (w : CmdWord) : Instr :=
  match op with
  | .nop => .nop
  | .status => .status
  | .hinit => .hinit (laneField w)
  | .hdata => .hdata (laneField w) (nField w) (dataField w)
  | .hfinal => .hfinal (laneField w)
  | .twr => .twr (laneField w) (dataField w)
  | .trd => .trd (laneField w)
  | .badd => .badd
  | .btest => .btest
  | .bclear => .bclear
  | .kwr => .kwr (laneField w) (Half.ofBit (hField w)) (dataField w)
  | .kinit => .kinit
  | .kdata => .kdata (nField w) (dataField w)
  | .kadd => .kadd
  | .ktest => .ktest

/-- Steps 3 and 4 of R78: the chunk length, then the data above the chunk. -/
def chunkFault (n : BitVec 3) (data : Word) : Option (Cause × Byte) :=
  if !countLegal n then some (.badCount, 0)
  else if !chunkClean n data then some (.reservedNonzero, 0)
  else none

/-- Step 5 of R78: the lane range. -/
def laneFault (k : Nat) (lane : Byte) : Option (Cause × Byte) :=
  if laneInRange k lane then none else some (.laneRange, lane)

/-- Steps 3 to 5 of R78 on a command's operands, in that order: the verdict of the first check that fails. -/
def operandFault (k : Nat) : Instr → Option (Cause × Byte)
  | .nop => none
  | .status => none
  | .hinit lane => laneFault k lane
  | .hdata lane n data => (chunkFault n data).orElse fun _ => laneFault k lane
  | .hfinal lane => laneFault k lane
  | .twr lane _ => laneFault k lane
  | .trd lane => laneFault k lane
  | .badd => none
  | .btest => none
  | .bclear => none
  | .kwr slot _ _ => laneFault k slot
  | .kinit => none
  | .kdata n data => chunkFault n data
  | .kadd => none
  | .ktest => none

/-- `Decode(w)` of R78 for an engine of `k` lanes: the checks in the rule's order, stopping at the first that
fails. Total: every word gets one verdict. -/
def decode (k : Nat) (w : CmdWord) : Decoded :=
  match Op.ofCode? (opField w) with
  | none => .fault .illegalOpcode 0
  | some op =>
    if reservedSet op w then .fault .reservedNonzero 0
    else
      match operandFault k (assemble op w) with
      | some (cause, lane) => .fault cause lane
      | none => .op (assemble op w)

/-! ### Encode -/

/-- A word from its fields, in the layout of R70 (the reserved fields zero, R75). -/
def packFields (op lane : Byte) (h : BitVec 1) (n : BitVec 3) (data : Word) : CmdWord :=
  op ++ lane ++ (0 : BitVec 4) ++ h ++ n ++ (0 : BitVec 8) ++ data

/-- The one word of a command (R75: every legal command has exactly one encoding), from the field table of
R76. -/
def encode (i : Instr) : CmdWord :=
  match i with
  | .nop => packFields 0x00 0 0 0 0
  | .status => packFields 0x01 0 0 0 0
  | .hinit lane => packFields 0x10 lane 0 0 0
  | .hdata lane n data => packFields 0x11 lane 0 n data
  | .hfinal lane => packFields 0x12 lane 0 0 0
  | .twr lane data => packFields 0x20 lane 0 0 data
  | .trd lane => packFields 0x21 lane 0 0 0
  | .badd => packFields 0x22 0 0 0 0
  | .btest => packFields 0x23 0 0 0 0
  | .bclear => packFields 0x24 0 0 0 0
  | .kwr slot h data => packFields 0x30 slot h.bit 0 data
  | .kinit => packFields 0x31 0 0 0 0
  | .kdata n data => packFields 0x32 0 0 n data
  | .kadd => packFields 0x33 0 0 0 0
  | .ktest => packFields 0x34 0 0 0 0

/-! ### The table's numbering of bits -/

/-- The command word of an opcode-table row whose bits are `w`: the table numbers a command's 64 bits as R70 does,
and bits at or above `nbits` are zero. -/
def tableWord (nbits w : Nat) : CmdWord := BitVec.ofNat 64 (w % 2 ^ nbits)

/-- What the decoder reads from an opcode-table word, for the number of lanes of `State.reset` (log 1). -/
def decodeTableWord (nbits w : Nat) : Option Instr :=
  match decode Config.specExample.k (tableWord nbits w) with
  | .op i => some i
  | .fault _ _ => none

end Sys2Proof
end

