-- ==== Sys2Proof/Machine/State.lean ====
section
/-! DEFINITION. The architectural state of spec/10_state.md, the state of the two ports, and the state after
reset (R42). -/

namespace Sys2Proof.Machine

open Sys2Proof

/-- The four mixing words of a lane (10_state.md R22, R24). -/
structure Mix where
  v0 : Word
  v1 : Word
  v2 : Word
  v3 : Word
  deriving DecidableEq, Repr

/-- The pending buffer `PB` with its fill level `PL` in `0..3` (10_state.md R25). The constructor is the fill
level, its arguments are `PB[0]` to `PB[PL-1]`, earliest first. Positions at or above `PL` hold no value
(R25, R36). -/
inductive Pending where
  | zero
  | one (b0 : Byte)
  | two (b0 b1 : Byte)
  | three (b0 b1 b2 : Byte)
  deriving DecidableEq, Repr

/-- The registers of a lane that has been initialized (10_state.md R22). -/
structure LaneRegs where
  /-- `V0` to `V3` -/
  v : Mix
  /-- `PB` and `PL` -/
  pending : Pending
  /-- `BC`, the byte count modulo 256 (R26) -/
  bc : Byte
  deriving DecidableEq, Repr

/-- A lane: its status `LS` is the constructor (10_state.md R23). An IDLE lane holds no register values
(R24, R36); a DONE lane holds what finalization left (R24). -/
inductive Lane where
  | idle
  | active (r : LaneRegs)
  | done (r : LaneRegs)
  deriving DecidableEq, Repr

/-- The two addressed spaces of 20_memory.md R50. -/
structure Memory where
  /-- KEYS: the key bytes that have been written, by address, strictly rising. An unlisted address holds no value
  (10_state.md R36), and `KVAL[s][h]` is whether the four bytes of half `h` of slot `s` are listed (R28). -/
  keys : List Host.Cell
  /-- BITS: the addresses of the bits that are 1, strictly rising. An unlisted address reads 0 (R42). -/
  bits : List Nat
  deriving DecidableEq, Repr

/-- The fault record (10_state.md R32). -/
structure FaultRecord where
  halted : Bool
  cause : BitVec 4
  flane : Byte
  fop : Byte
  fidx : Word
  deriving DecidableEq, Repr

/-- What the host may do in one step of its own (60_exceptions.md R189). -/
inductive HostMove where
  /-- present one command word on the command port (R186) -/
  | issue (w : CmdWord)
  /-- read the front response word, if there is one (R184) -/
  | readResponse
  /-- assert reset (70_reset_and_hazards.md R200, R201) -/
  | assertReset
  /-- do nothing: the engine takes its step -/
  | wait
  deriving DecidableEq, Repr

/-- The engine, its two ports and the host's coming moves. -/
structure State where
  /-- the build-time parameters; not state in the spec (R35), and no step changes them (log 1) -/
  cfg : Config
  /-- `LANE[0]` to `LANE[K-1]` (R22) -/
  lanes : List Lane
  /-- `TAG[i]` with `TV[i]`: `some t` is `TV[i] = 1` and `TAG[i] = t` (R29, R36) -/
  tags : List (Option Word)
  /-- the key store `KS` with `KVAL` (R27, R28), and the bit array `BA` (R30) -/
  mem : Memory
  /-- `MATCH` (R31) -/
  matched : Bool
  /-- `HALTED`, `CAUSE`, `FLANE`, `FOP`, `FIDX` (R32) -/
  record : FaultRecord
  /-- `CI`, the command index (R40) -/
  ci : Word
  /-- `RESP`, oldest word first (R34) -/
  resp : List Word
  /-- the words presented on the command port and not yet consumed, oldest first (R186; log 6) -/
  port : List CmdWord
  /-- the model's own: the host's next moves, one a step; empty, or `wait`, is the engine's turn (R20; log 7) -/
  host : List HostMove
  /-- the model's own: the words the host has read since reset, oldest first (R190; log 8) -/
  delivered : List Word
  deriving DecidableEq, Repr

/-- No fault: the fault record after reset (R42). -/
def FaultRecord.clear : FaultRecord where
  halted := false
  cause := 0
  flane := 0
  fop := 0
  fidx := 0

/-- Reset of an engine built with the parameters `cfg`: every element at its value of 10_state.md R42. -/
def State.resetWith (cfg : Config) : State where
  cfg := cfg
  lanes := List.replicate cfg.k .idle
  tags := List.replicate cfg.k none
  mem := { keys := [], bits := [] }
  matched := false
  record := FaultRecord.clear
  ci := 0
  resp := []
  port := []
  host := []
  delivered := []

/-- The machine right after reset (R42), for the configuration of log 1. -/
def State.reset : State := State.resetWith Config.specExample

/-- Why a step stops the machine with a fault of the MODEL: never. Every misuse the spec names is a fault of the
engine, which the engine records and survives (60_exceptions.md R170 to R176), so it is a next state here. Hence
no constructor, and nobody raises one. Safe. -/
inductive Fault where
  deriving DecidableEq, Repr

/-- Why a step is refused. -/
inductive Refusal where
  /-- An arm of `exec` whose instruction has no meaning yet, by its mnemonic. No arm answers it: every command of
  the table has its meaning. Safe: it would stop the model where the engine goes on. -/
  | notModelled (mnemonic : String)
  deriving DecidableEq, Repr

end Sys2Proof.Machine
end

