-- ==== Sys2Proof/Machine/Operands.lean ====
section
/-! DEFINITION. The operand forms: bytes of a DATA field, little-endian assembly, rotation, the chunk of a data
command, the view of the pending buffer (00_scope.md R8, R9; 20_memory.md R55, R56; 30_encoding.md R74). -/

namespace Sys2Proof.Machine

open Sys2Proof

/-- Byte `j` of a DATA field: `DATA[8j+7:8j]` (R74). -/
def byteOf (data : Word) (j : Nat) : Byte := data.extractLsb' (8 * j) 8

/-- `LE32(b0, b1, b2, b3)`, `b0` least significant (R9). -/
def le32 (b0 b1 b2 b3 : Byte) : Word := b3 ++ b2 ++ b1 ++ b0

/-- `rotl32(x, r)` for `1 <= r <= 31` (R8). -/
def rotl32 (x : Word) (r : Nat) : Word := (x <<< r) ||| (x >>> (32 - r))

/-- The bytes of a chunk in the order they are absorbed: byte `j` of DATA for `j < n` (R55, R72, R74). -/
def chunk (n : BitVec 3) (data : Word) : List Byte := (List.range n.toNat).map (byteOf data)

/-- The four key bytes of a KWR, in address order (R74, 42_keyed_bit_filter.md R141). -/
def keyBytes (data : Word) : List Byte := [byteOf data 0, byteOf data 1, byteOf data 2, byteOf data 3]

/-- The offset of a half in its key slot (R73). -/
def halfOffset : Half → Nat
  | .first => 0
  | .second => 4

/-- `PL`, the fill level (10_state.md R25). -/
def Pending.level : Pending → BitVec 2
  | .zero => 0
  | .one _ => 1
  | .two _ _ => 2
  | .three _ _ _ => 3

/-- `PB[0]` to `PB[PL-1]`, earliest first (10_state.md R25). -/
def Pending.bytes : Pending → List Byte
  | .zero => []
  | .one b0 => [b0]
  | .two b0 b1 => [b0, b1]
  | .three b0 b1 b2 => [b0, b1, b2]

/-- `PB[j]` where it holds a value (10_state.md R25). -/
def Pending.byte? (p : Pending) (j : Nat) : Option Byte := p.bytes[j]?

/-- `LS` as the code of 10_state.md R23: IDLE 0, ACTIVE 1, DONE 2. -/
def Lane.ls : Lane → BitVec 2
  | .idle => 0
  | .active _ => 1
  | .done _ => 2

end Sys2Proof.Machine
end

