-- ==== Sys2Proof/Machine/Mixer.lean ====
section
/-! DEFINITION. The lane datapath of 40_keyed_stream_hash.md: the permutation (R90), compression (R91),
initialization (R92), absorption (R93) and finalization (R94), on the registers of one lane. The constants and
word roles are the spec's, from general knowledge (93_implementation_defined.md G2 to G8; log 2). -/

namespace Sys2Proof.Machine

open Sys2Proof

/-- `Round`, the permutation: the four lines of R90, each statement reading what the one before it left. -/
def mixRound (m : Mix) : Mix :=
  let v0 := m.v0 + m.v1
  let v1 := rotl32 m.v1 5 ^^^ v0
  let v0 := rotl32 v0 16
  let v2 := m.v2 + m.v3
  let v3 := rotl32 m.v3 8 ^^^ v2
  let v0 := v0 + v3
  let v3 := rotl32 v3 7 ^^^ v0
  let v2 := v2 + v1
  let v1 := rotl32 v1 13 ^^^ v2
  let v2 := rotl32 v2 16
  { v0 := v0, v1 := v1, v2 := v2, v3 := v3 }

/-- The permutation applied `n` times (R91, R94). -/
def rounds : Nat → Mix → Mix
  | 0, m => m
  | n + 1, m => rounds n (mixRound m)

/-- `Compress` on the mixing words: `V3 ^= m`, `C` rounds, `V0 ^= m` (R91). -/
def compress (c : Nat) (m : Word) (v : Mix) : Mix :=
  let v := rounds c { v with v3 := v.v3 ^^^ m }
  { v with v0 := v.v0 ^^^ m }

/-- The registers `Init` leaves, from the two key words (R92). -/
def initRegs (k0 k1 : Word) : LaneRegs where
  v := { v0 := k0, v1 := k1, v2 := k0 ^^^ 0x6C796765, v3 := k1 ^^^ 0x74656462 }
  pending := .zero
  bc := 0

/-- `Absorb`: one stream byte into a lane; the fourth byte of a block compresses it (R93). -/
def absorb (c : Nat) (r : LaneRegs) (b : Byte) : LaneRegs :=
  match r.pending with
  | .zero => { r with pending := .one b, bc := r.bc + 1 }
  | .one b0 => { r with pending := .two b0 b, bc := r.bc + 1 }
  | .two b0 b1 => { r with pending := .three b0 b1 b, bc := r.bc + 1 }
  | .three b0 b1 b2 =>
    { v := compress c (le32 b0 b1 b2 b) r.v, pending := .zero, bc := r.bc + 1 }

/-- A chunk absorbed byte by byte, in increasing `j` (R101, R143). -/
def absorbAll (c : Nat) (r : LaneRegs) (bytes : List Byte) : LaneRegs := bytes.foldl (absorb c) r

/-- The final block: the pending bytes, zero above `PL`, with the byte count as the 4th byte (R94). -/
def finalBlock (r : LaneRegs) : Word :=
  le32 ((r.pending.byte? 0).getD 0) ((r.pending.byte? 1).getD 0) ((r.pending.byte? 2).getD 0) r.bc

/-- The mixing words after the last block: `V2 ^= 0xFF`, then `D` rounds (R94). -/
def finish (d : Nat) (v : Mix) : Mix := rounds d { v with v2 := v.v2 ^^^ 0x000000FF }

/-- The registers `Finalize` leaves (R94). -/
def finalize (c d : Nat) (r : LaneRegs) : LaneRegs :=
  { r with v := finish d (compress c (finalBlock r) r.v) }

/-- The tag of a finalized lane: `V1 ^ V3` (R94). -/
def tagOf (r : LaneRegs) : Word := r.v.v1 ^^^ r.v.v3

end Sys2Proof.Machine
end

