-- ==== Sys2Proof/Machine/Ops.lean ====
section
/-! DEFINITION. The named operations over the state: the two memories (20_memory.md R51, R53), the lane and tag
registers, the response stream, the check that stops at the lowest index (60_exceptions.md R174), and taking a
fault (R172). -/

namespace Sys2Proof.Machine

open Sys2Proof

/-! ### Memory -/

/-- Addresses strictly rising. -/
def rising : List Nat → Bool
  | [] => true
  | [_] => true
  | x :: y :: zs => decide (x < y) && rising (y :: zs)

/-- The canonical form of both spaces: addresses strictly rising. No entry reads as an unlisted address does: a
listed key byte holds a value and a listed bit is 1. -/
def Memory.wf (m : Memory) : Bool := rising (m.keys.map Prod.fst) && rising m.bits

/-- The byte at a key address, if it holds a value. -/
def readKey (a : Nat) : List Host.Cell → Option Byte
  | [] => none
  | (x, b) :: rest => if x = a then some b else readKey a rest

/-- One key byte written, keeping addresses rising. -/
def writeKey (a : Nat) (b : Byte) : List Host.Cell → List Host.Cell
  | [] => [(a, b)]
  | (x, y) :: rest =>
    if a < x then (a, b) :: (x, y) :: rest
    else if a = x then (a, b) :: rest
    else (x, y) :: writeKey a b rest

/-- `MemRead(KEYS, a, n)`: the bytes at `a` to `a+n-1`, if all of them hold a value (R51). -/
def memRead (keys : List Host.Cell) (a n : Nat) : Option (List Byte) :=
  match n with
  | 0 => some []
  | n + 1 => (readKey a keys).bind fun b => (memRead keys (a + 1) n).map (b :: ·)

/-- `MemWrite(KEYS, a, n, bytes)` with `n` the number of bytes (R51). -/
def memWrite (keys : List Host.Cell) (a : Nat) : List Byte → List Host.Cell
  | [] => keys
  | b :: bs => memWrite (writeKey a b keys) (a + 1) bs

/-- `BitRead(x)` (R53). -/
def bitRead (bits : List Nat) (x : Nat) : Bool := bits.contains x

/-- Bit `x` set to 1, keeping addresses rising. -/
def insertBit (x : Nat) : List Nat → List Nat
  | [] => [x]
  | y :: ys => if x < y then x :: y :: ys else if x = y then y :: ys else y :: insertBit x ys

/-- `BitWrite(x, v)` (R53). -/
def bitWrite (x : Nat) (v : Bool) (bits : List Nat) : List Nat :=
  if v then insertBit x bits else bits.filter (· != x)

/-- `BitWrite(x, 1)` for every `x` of a list, in order (R123, R144). -/
def setBitsAt (xs : List Nat) (bits : List Nat) : List Nat := xs.foldl (fun acc x => bitWrite x true acc) bits

/-- `idx(t) = t AND (M-1)`, with `M - 1` a 32-bit mask of `LOG2M` one-bits (41_bit_filter.md R120). -/
def idx (log2m : Nat) (t : Word) : Nat := (t &&& BitVec.ofNat 32 (2 ^ log2m - 1)).toNat

/-! ### Reads of the state -/

/-- `KVAL[s][h]`: the four bytes of the half have been written (10_state.md R28). -/
def State.kval (s : State) (slot : Nat) (h : Half) : Bool :=
  (memRead s.mem.keys (8 * slot + halfOffset h) 4).isSome

/-- The key words `k0`, `k1` of a slot, if every byte of it has been written (R51, R92). -/
def State.slotWords (s : State) (slot : Nat) : Option (Word × Word) :=
  match memRead s.mem.keys (8 * slot) 8 with
  | some [b0, b1, b2, b3, b4, b5, b6, b7] => some (le32 b0 b1 b2 b3, le32 b4 b5 b6 b7)
  | _ => none

/-- The registers of lane `i`, if the lane is ACTIVE (R23). -/
def State.activeLane (s : State) (i : Nat) : Option LaneRegs :=
  match s.lanes[i]? with
  | some (.active r) => some r
  | _ => none

/-- `TAG[i]`, if `TV[i] = 1` (R29). -/
def State.tagAt (s : State) (i : Nat) : Option Word := (s.tags[i]?).join

/-- The values `f 0` to `f (n-1)`, or the LOWEST index at which `f` has none (R174). -/
def collectFrom {α : Type} (f : Nat → Option α) (i : Nat) : Nat → Except Nat (List α)
  | 0 => .ok []
  | n + 1 =>
    match f i with
    | none => .error i
    | some x =>
      match collectFrom f (i + 1) n with
      | .error j => .error j
      | .ok xs => .ok (x :: xs)

/-- The check-and-read of a K-lane command: `f` at `0..K-1`, in increasing index order (R174). -/
def collect {α : Type} (f : Nat → Option α) (n : Nat) : Except Nat (List α) := collectFrom f 0 n

/-! ### Writes of the state -/

def State.setLane (s : State) (i : Nat) (l : Lane) : State := { s with lanes := s.lanes.set i l }
def State.setLanes (s : State) (ls : List Lane) : State := { s with lanes := ls }

/-- `TAG[i] <- t; TV[i] <- 1` (R29). -/
def State.setTag (s : State) (i : Nat) (t : Word) : State := { s with tags := s.tags.set i (some t) }

/-- Every tag register written (R144, R145). -/
def State.setTags (s : State) (ts : List Word) : State := { s with tags := ts.map some }

def State.setKeys (s : State) (keys : List Host.Cell) : State :=
  { s with mem := { s.mem with keys := keys } }
def State.setBits (s : State) (bits : List Nat) : State :=
  { s with mem := { s.mem with bits := bits } }
def State.setMatch (s : State) (b : Bool) : State := { s with matched := b }

/-- `push(w)` (R184). -/
def State.push (s : State) (w : Word) : State := { s with resp := s.resp ++ [w] }

/-- `CI <- CI +32 1` (R40, R82). -/
def State.advance (s : State) : State := { s with ci := s.ci + 1 }

/-- `raise Fault(cause, lane)`, the fault entry of R172, for a word whose OP field is `op`. There is no return from
a fault: only reset clears the record (R176). -/
def State.takeFault (s : State) (cause : Cause) (lane op : Byte) : State :=
  { s with record := { halted := true, cause := cause.code, flane := lane, fop := op, fidx := s.ci } }

/-- The fault of a K-lane command at index `i` (R174). Indices are below K, so the 8 bits hold them (R1). -/
def State.takeFaultAt (s : State) (cause : Cause) (i : Nat) (op : Byte) : State :=
  s.takeFault cause (BitVec.ofNat 8 i) op

/-- Reset asserted: every element takes its reset value, the presented words and the unread responses are lost
(70_reset_and_hazards.md R200, R201). The parameters and the host's own coming moves are not the engine's
(log 11). -/
def State.resetByHost (s : State) : State := { State.resetWith s.cfg with host := s.host }

/-- Execution of a command whose effect leaves the state `t`. A decoded command meets the operand checks of R78; one
that does not takes the fault the decoder would have given (log 12). -/
def runCommand (i : Instr) (s t : State) : Host.Outcome State Fault Refusal :=
  match operandFault s.cfg.k i with
  | some (cause, lane) => .next (s.takeFault cause lane i.op.code)
  | none => .next t

end Sys2Proof.Machine
end

