-- ==== Sys2Proof/Machine/Flags.lean ====
section
/-! DEFINITION. The one flag and the status word: the value of MATCH (10_state.md R31, 41_bit_filter.md R124) and
the layout of the status word (10_state.md R33). -/

namespace Sys2Proof.Machine

open Sys2Proof

/-- A 1-bit value in a 32-bit word (R7). -/
def zextBit (b : Bool) : Word := if b then 1 else 0

/-- The result of a test: the AND of the bits the tags select (R124, R145). -/
def testResult (log2m : Nat) (bits : List Nat) (tags : List Word) : Bool :=
  tags.all fun t => bitRead bits (idx log2m t)

/-- The status word (R33). -/
def statusWord (s : State) : Word :=
  (s.record.fop.setWidth 32 <<< 16) ||| (s.record.flane.setWidth 32 <<< 8) ||| (zextBit s.matched <<< 5)
    ||| (s.record.cause.setWidth 32 <<< 1) ||| zextBit s.record.halted

end Sys2Proof.Machine
end

