-- ==== Sys2Proof/Machine/BitFilter.lean ====
section
/-! DEFINITION. The bit-filter commands of 41_bit_filter.md section 2. -/

namespace Sys2Proof.Machine

open Sys2Proof

/-- TWR (R121). -/
def execTwr (lane : Byte) (data : Word) (s : State) : Host.Outcome State Fault Refusal :=
  runCommand (.twr lane data) s (s.setTag lane.toNat data)

/-- The effect of TRD on a register in range (R122). -/
def trdEffect (lane : Byte) (s : State) : State :=
  match s.tagAt lane.toNat with
  | none => s.takeFault .tagUnwritten lane Op.trd.code
  | some t => s.push t

/-- TRD (R122). -/
def execTrd (lane : Byte) (s : State) : Host.Outcome State Fault Refusal :=
  runCommand (.trd lane) s (trdEffect lane s)

/-- The effect of BADD (R123). -/
def baddEffect (s : State) : State :=
  match collect s.tagAt s.cfg.k with
  | .error i => s.takeFaultAt .tagUnwritten i Op.badd.code
  | .ok ts => s.setBits (setBitsAt (ts.map (idx s.cfg.log2m)) s.mem.bits)

/-- BADD (R123). -/
def execBadd (s : State) : Host.Outcome State Fault Refusal := runCommand .badd s (baddEffect s)

/-- The effect of BTEST (R124). -/
def btestEffect (s : State) : State :=
  match collect s.tagAt s.cfg.k with
  | .error i => s.takeFaultAt .tagUnwritten i Op.btest.code
  | .ok ts =>
    let r := testResult s.cfg.log2m s.mem.bits ts
    (s.setMatch r).push (zextBit r)

/-- BTEST (R124). -/
def execBtest (s : State) : Host.Outcome State Fault Refusal := runCommand .btest s (btestEffect s)

/-- BCLEAR: every bit is 0 afterwards (R125). -/
def execBclear (s : State) : Host.Outcome State Fault Refusal := runCommand .bclear s (s.setBits [])

end Sys2Proof.Machine
end

