-- ==== Sys2Proof/Machine/HashLane.lean ====
section
/-! DEFINITION. The single-lane commands of 40_keyed_stream_hash.md section 3. -/

namespace Sys2Proof.Machine

open Sys2Proof

/-- The effect of HINIT on a lane in range (R100). -/
def hinitEffect (lane : Byte) (s : State) : State :=
  match s.slotWords lane.toNat with
  | none => s.takeFault .keyUnwritten lane Op.hinit.code
  | some (k0, k1) => s.setLane lane.toNat (.active (initRegs k0 k1))

/-- HINIT (R100). -/
def execHinit (lane : Byte) (s : State) : Host.Outcome State Fault Refusal :=
  runCommand (.hinit lane) s (hinitEffect lane s)

/-- The effect of HDATA on a lane in range (R101). -/
def hdataEffect (lane : Byte) (n : BitVec 3) (data : Word) (s : State) : State :=
  match s.activeLane lane.toNat with
  | none => s.takeFault .laneNotActive lane Op.hdata.code
  | some r => s.setLane lane.toNat (.active (absorbAll s.cfg.c r (chunk n data)))

/-- HDATA (R101). -/
def execHdata (lane : Byte) (n : BitVec 3) (data : Word) (s : State) : Host.Outcome State Fault Refusal :=
  runCommand (.hdata lane n data) s (hdataEffect lane n data s)

/-- The effect of HFINAL on a lane in range (R102). -/
def hfinalEffect (lane : Byte) (s : State) : State :=
  match s.activeLane lane.toNat with
  | none => s.takeFault .laneNotActive lane Op.hfinal.code
  | some r =>
    let r' := finalize s.cfg.c s.cfg.d r
    ((s.setLane lane.toNat (.done r')).setTag lane.toNat (tagOf r')).push (tagOf r')

/-- HFINAL (R102). -/
def execHfinal (lane : Byte) (s : State) : Host.Outcome State Fault Refusal :=
  runCommand (.hfinal lane) s (hfinalEffect lane s)

end Sys2Proof.Machine
end

