-- ==== Sys2Proof/Machine/KeyedFilter.lean ====
section
/-! DEFINITION. The key-store write and the K-lane commands of 42_keyed_bit_filter.md section 2. -/

namespace Sys2Proof.Machine

open Sys2Proof

/-- KWR: four bytes at `8*slot + 4*h`, whose presence is `KVAL[slot][h] = 1` (R141). -/
def execKwr (slot : Byte) (h : Half) (data : Word) (s : State) : Host.Outcome State Fault Refusal :=
  runCommand (.kwr slot h data) s
    (s.setKeys (memWrite s.mem.keys (8 * slot.toNat + halfOffset h) (keyBytes data)))

/-- The effect of KINIT (R142). -/
def kinitEffect (s : State) : State :=
  match collect s.slotWords s.cfg.k with
  | .error i => s.takeFaultAt .keyUnwritten i Op.kinit.code
  | .ok ks => s.setLanes (ks.map fun kw => .active (initRegs kw.1 kw.2))

/-- KINIT (R142). -/
def execKinit (s : State) : Host.Outcome State Fault Refusal := runCommand .kinit s (kinitEffect s)

/-- The effect of KDATA (R143). -/
def kdataEffect (n : BitVec 3) (data : Word) (s : State) : State :=
  match collect s.activeLane s.cfg.k with
  | .error i => s.takeFaultAt .laneNotActive i Op.kdata.code
  | .ok rs => s.setLanes (rs.map fun r => .active (absorbAll s.cfg.c r (chunk n data)))

/-- KDATA (R143). -/
def execKdata (n : BitVec 3) (data : Word) (s : State) : Host.Outcome State Fault Refusal :=
  runCommand (.kdata n data) s (kdataEffect n data s)

/-- Every lane finalized, from the registers `rs` of the K active lanes, and every tag written: the part KADD and
KTEST share (R144, R145). -/
def State.finalizeAll (s : State) (rs : List LaneRegs) : State :=
  let fs := rs.map (finalize s.cfg.c s.cfg.d)
  (s.setLanes (fs.map Lane.done)).setTags (fs.map tagOf)

/-- The tags those lanes deliver, by lane. -/
def State.finalTags (s : State) (rs : List LaneRegs) : List Word :=
  rs.map fun r => tagOf (finalize s.cfg.c s.cfg.d r)

/-- The effect of KADD (R144). -/
def kaddEffect (s : State) : State :=
  match collect s.activeLane s.cfg.k with
  | .error i => s.takeFaultAt .laneNotActive i Op.kadd.code
  | .ok rs =>
    (s.finalizeAll rs).setBits (setBitsAt ((s.finalTags rs).map (idx s.cfg.log2m)) s.mem.bits)

/-- KADD (R144). -/
def execKadd (s : State) : Host.Outcome State Fault Refusal := runCommand .kadd s (kaddEffect s)

/-- The effect of KTEST: the tag derivation is never cut short (R145). -/
def ktestEffect (s : State) : State :=
  match collect s.activeLane s.cfg.k with
  | .error i => s.takeFaultAt .laneNotActive i Op.ktest.code
  | .ok rs =>
    let r := testResult s.cfg.log2m s.mem.bits (s.finalTags rs)
    ((s.finalizeAll rs).setMatch r).push (zextBit r)

/-- KTEST (R145). -/
def execKtest (s : State) : Host.Outcome State Fault Refusal := runCommand .ktest s (ktestEffect s)

end Sys2Proof.Machine
end

