-- ==== Sys2Proof/Machine/System.lean ====
section
/-! DEFINITION. The system commands of 43_system.md. -/

namespace Sys2Proof.Machine

open Sys2Proof

/-- NOP: nothing (R160). -/
def execNop (s : State) : Host.Outcome State Fault Refusal := runCommand .nop s s

/-- STATUS: pushes the status word, then FIDX (R161). -/
def execStatus (s : State) : Host.Outcome State Fault Refusal :=
  runCommand .status s ((s.push (statusWord s)).push s.record.fidx)

end Sys2Proof.Machine
end

