-- ==== Sys2Proof/Machine/Dispatch.lean ====
section
/-! DEFINITION. One arm per command: each is one call of the command's meaning. -/

namespace Sys2Proof.Machine

open Sys2Proof

def exec (i : Instr) (s : State) : Host.Outcome State Fault Refusal :=
  match i with
  | .nop => Sys2Proof.Machine.execNop s
  | .status => Sys2Proof.Machine.execStatus s
  | .hinit lane => Sys2Proof.Machine.execHinit lane s
  | .hdata lane n data => Sys2Proof.Machine.execHdata lane n data s
  | .hfinal lane => Sys2Proof.Machine.execHfinal lane s
  | .twr lane data => Sys2Proof.Machine.execTwr lane data s
  | .trd lane => Sys2Proof.Machine.execTrd lane s
  | .badd => Sys2Proof.Machine.execBadd s
  | .btest => Sys2Proof.Machine.execBtest s
  | .bclear => Sys2Proof.Machine.execBclear s
  | .kwr slot h data => Sys2Proof.Machine.execKwr slot h data s
  | .kinit => Sys2Proof.Machine.execKinit s
  | .kdata n data => Sys2Proof.Machine.execKdata n data s
  | .kadd => Sys2Proof.Machine.execKadd s
  | .ktest => Sys2Proof.Machine.execKtest s

end Sys2Proof.Machine
end

