-- ==== Sys2Proof/Machine/Cycle.lean ====
section
/-! DEFINITION. The command cycle of 30_encoding.md R82 with the room test of 60_exceptions.md R185 and the halted
state of R175, and the host's moves (R189). -/

namespace Sys2Proof.Machine

open Sys2Proof

/-- How many words a command word may push, decided by its OP alone, before decode (R185). -/
def mayPush (w : CmdWord) : Nat :=
  match Op.ofCode? (opField w) with
  | some .status => 2
  | some .hfinal | some .trd | some .btest | some .ktest => 1
  | _ => 0

/-- The response stream has room for `n` more words (R185). -/
def State.hasRoom (s : State) (n : Nat) : Bool :=
  match s.cfg.respDepth with
  | none => true
  | some depth => decide (s.resp.length + n ≤ depth)

/-- The one word that executes while halted: STATUS, exactly (R175, R82). -/
def statusCommand : CmdWord := 0x0100000000000000

/-- The last act of every command cycle: `CI <- CI +32 1`, on the faulting path too (R82). -/
def completeCycle : Host.Outcome State Fault Refusal → Host.Outcome State Fault Refusal
  | .next t => .next t.advance
  | .fault r => .fault r
  | .refused r => .refused r

/-- `Step(w)` of R82: what the engine does with a word it has consumed. -/
def runWord (w : CmdWord) (s : State) : Host.Outcome State Fault Refusal :=
  if s.record.halted then
    if w = statusCommand then completeCycle (exec .status s) else .next s.advance
  else
    match decode s.cfg.k w with
    | .fault cause lane => .next (s.takeFault cause lane (opField w)).advance
    | .op i => completeCycle (exec i s)

/-- One step of the engine: idle with no word presented (R202), held while the response stream lacks room (R185,
R209), otherwise one command cycle. Idle and held answer the state itself: the engine takes no step (log 10). -/
def engineStep (s : State) : Host.Outcome State Fault Refusal :=
  match s.port with
  | [] => .next s
  | w :: rest => if s.hasRoom (mayPush w) then runWord w { s with port := rest } else .next s

/-- The host reads the front response word; with none there, nothing happens (R184, R189; log 8). -/
def State.readByHost (s : State) : State :=
  match s.resp with
  | [] => s
  | w :: rest => { s with resp := rest, delivered := s.delivered ++ [w] }

/-- The host presents a word on the command port, behind any still waiting (R186; log 6). -/
def State.issueByHost (s : State) (w : CmdWord) : State := { s with port := s.port ++ [w] }

/-- One step of the machine: the host's next move if it has one, else the engine's step (R20; log 7). -/
def machineStep (s : State) : Host.Outcome State Fault Refusal :=
  match s.host with
  | [] => engineStep s
  | .issue w :: ms => .next (State.issueByHost { s with host := ms } w)
  | .readResponse :: ms => .next (State.readByHost { s with host := ms })
  | .assertReset :: ms => .next (State.resetByHost { s with host := ms })
  | .wait :: ms => engineStep { s with host := ms }

/-- `s` with a word at the front of the command port and the turn the engine's. -/
def State.presentNext (s : State) (w : CmdWord) : State := { s with port := w :: s.port, host := [] }

end Sys2Proof.Machine
end

