-- ==== Sys2Proof/Machine/Step.lean ====
section
/-! DEFINITION. The step of the machine, and a word placed where the next step takes it from. -/

namespace Sys2Proof.Machine

open Sys2Proof

/-- One step: of the host, if it has a move, else of the engine. -/
def step (s : State) : Host.Outcome State Fault Refusal := machineStep s

/-- `s` with the opcode-table word `w` at the front of the command port, the engine to move: the next `step`
consumes it (log 14). -/
def State.withFetchWord (s : State) (nbits w : Nat) : State := s.presentNext (tableWord nbits w)

end Sys2Proof.Machine
end

