-- ==== Sys2Proof/Machine/Run.lean ====
section
/-! DEFINITION. Runs (60_exceptions.md R190): when a run has ended, its observation, its result; and a sequence of
consumed words. -/

namespace Sys2Proof.Machine

open Sys2Proof

/-- The words pushed since reset, in order: those the host has read, then those still in `RESP`. -/
def State.pushed (s : State) : List Word := s.delivered ++ s.resp

/-- The host delivers no more commands in this run: no move before its next reset presents a word. What it issues
after that reset belongs to the next run (R190; log 15). -/
def deliversNoMore : List HostMove → Bool
  | [] => true
  | .issue _ :: _ => false
  | .readResponse :: ms => deliversNoMore ms
  | .assertReset :: _ => true
  | .wait :: ms => deliversNoMore ms

/-- A run has ended: the last delivered command has been consumed and the host delivers no more (R190). A run held
on a full response stream still has its word on the port, so it has not. -/
def State.ended (s : State) : Bool := s.port.isEmpty && deliversNoMore s.host

/-- A faulted run: it has ended with `HALTED = 1` (R190). -/
def State.faulted (s : State) : Bool := s.ended && s.record.halted

/-- A successful run: it has ended, and is not a faulted one (R190). -/
def State.succeeded (s : State) : Bool := s.ended && !s.record.halted

/-- The observation of a run: the words pushed to `RESP`, and the final state of 10_state.md (R190). `RESP` itself is
there as all the words pushed, for the definition says nothing of how promptly the host read them (log 15). -/
structure Observation where
  pushed : List Word
  lanes : List Lane
  tags : List (Option Word)
  mem : Memory
  matched : Bool
  record : FaultRecord
  ci : Word
  deriving DecidableEq, Repr

/-- What a run that is at `s` would be observed as (R190). -/
def State.observe (s : State) : Observation where
  pushed := s.pushed
  lanes := s.lanes
  tags := s.tags
  mem := s.mem
  matched := s.matched
  record := s.record
  ci := s.ci

/-- The observation of an ended run (R190); a run that has not ended has none. -/
def State.observation (s : State) : Option Observation := if s.ended then some s.observe else none

/-- Command words consumed one after another, each by the command cycle of 30_encoding.md R82. -/
def runWords : List CmdWord → State → Host.Outcome State Fault Refusal
  | [], s => .next s
  | w :: ws, s =>
    match runWord w s with
    | .next t => runWords ws t
    | .fault r => .fault r
    | .refused r => .refused r

/-- It is the engine's turn at `s`, and `u` is `s` as the engine then finds it: the host has no move, or its move is
to wait (log 7). -/
def State.EngineTurn (s u : State) : Prop :=
  (s.host = [] ∧ u = s) ∨ (∃ ms, s.host = .wait :: ms ∧ u = { s with host := ms })

end Sys2Proof.Machine
end

