-- ==== Sys2Proof/Safety.lean ====
section
/-! DEFINITION. The terms claims use: the invariant of the engine, and the hash in closed form
(40_keyed_stream_hash.md R98). Runs are in Machine/Run.lean. -/

namespace Sys2Proof.Machine

open Sys2Proof

/-! ### The invariant of the engine -/

/-- Both spaces are canonical and within their sizes, and key halves are written whole (20_memory.md R50, R51, R53,
R58). -/
abbrev State.MemoryInv (s : State) : Prop :=
  s.mem.wf = true
    ∧ (∀ cell ∈ s.mem.keys, cell.1 < 8 * s.cfg.k)
    ∧ (∀ cell ∈ s.mem.keys, ∀ j < 4, (readKey (4 * (cell.1 / 4) + j) s.mem.keys).isSome = true)
    ∧ (∀ x ∈ s.mem.bits, x < s.cfg.m)

/-- The fault record is clear, or it records a halt with a cause of 1 to 7 (10_state.md R32, R33). -/
abbrev State.RecordInv (s : State) : Prop :=
  s.record = FaultRecord.clear
    ∨ (s.record.halted = true ∧ 1 ≤ s.record.cause.toNat ∧ s.record.cause.toNat ≤ 7)

/-- What every step keeps: K lanes and K tag registers (10_state.md R22, R29), the memory and the record as
above, and at most RESP_DEPTH unread responses (60_exceptions.md R185). -/
abbrev State.Inv (s : State) : Prop :=
  s.lanes.length = s.cfg.k
    ∧ s.tags.length = s.cfg.k
    ∧ s.MemoryInv
    ∧ s.RecordInv
    ∧ s.resp.length ≤ s.cfg.respDepth.getD s.resp.length

/-! ### The hash in closed form (R98) -/

/-- The full 4-byte blocks of a stream compressed in order; the mixing words, and the bytes left over. -/
def hashBlocks (c : Nat) : List Byte → Mix → Mix × List Byte
  | b0 :: b1 :: b2 :: b3 :: rest, v => hashBlocks c rest (compress c (le32 b0 b1 b2 b3) v)
  | rest, v => (v, rest)

/-- `H(key, s)` of R98 for the key words `k0`, `k1`: the blocks, the last block with `L mod 256` as its fourth byte,
`V2 ^= 0xFF`, `D` rounds, `V1 ^ V3`. -/
def hashTag (c d : Nat) (k0 k1 : Word) (s : List Byte) : Word :=
  let start : Mix := { v0 := k0, v1 := k1, v2 := k0 ^^^ 0x6C796765, v3 := k1 ^^^ 0x74656462 }
  let (v, left) := hashBlocks c s start
  let m := le32 (left.getD 0 0) (left.getD 1 0) (left.getD 2 0) (BitVec.ofNat 8 (s.length % 256))
  let v := compress c m v
  let v := rounds d { v with v2 := v.v2 ^^^ 0xFF }
  v.v1 ^^^ v.v3

end Sys2Proof.Machine
end

