-- ==== Sys2Proof/Certificates/Slice0/Obligations.lean ====
section
/-! DEFINITION. The statements for the provers, one `def Obligations.<Name> : Prop` each, and the few terms they
share. The terms restate the spec's tables and pseudocode in their own way (plain Nat arithmetic, lists), so that
a statement is not the model's definition over again. -/

namespace Sys2Proof.Claims

open Sys2Proof Sys2Proof.Machine

/-- 30_encoding.md R76 and R77: OP code, then whether LANE, H, N and DATA are operands. -/
def fieldUse : List (Nat × Bool × Bool × Bool × Bool) :=
  [(0x00, false, false, false, false), (0x01, false, false, false, false),
   (0x10, true, false, false, false), (0x11, true, false, true, true), (0x12, true, false, false, false),
   (0x20, true, false, false, true), (0x21, true, false, false, false), (0x22, false, false, false, false),
   (0x23, false, false, false, false), (0x24, false, false, false, false),
   (0x30, true, true, false, true), (0x31, false, false, false, false), (0x32, false, false, true, true),
   (0x33, false, false, false, false), (0x34, false, false, false, false)]

/-- The operands LANE, H, N, DATA of a command as numbers, 0 for a field it does not use. -/
def operands : Instr → Nat × Nat × Nat × Nat
  | .hinit lane | .hfinal lane | .trd lane => (lane.toNat, 0, 0, 0)
  | .hdata lane n data => (lane.toNat, 0, n.toNat, data.toNat)
  | .twr lane data => (lane.toNat, 0, 0, data.toNat)
  | .kwr slot h data => (slot.toNat, (match h with | .first => 0 | .second => 1), 0, data.toNat)
  | .kdata n data => (0, 0, n.toNat, data.toNat)
  | .nop | .status | .badd | .btest | .bclear | .kinit | .kadd | .ktest => (0, 0, 0, 0)

/-- `rotl32` of 00_scope.md R8 on numbers. -/
def rotl (x r : Nat) : Nat := (x * 2 ^ r ||| x / 2 ^ (32 - r)) % 2 ^ 32

/-- `a +32 b` of 00_scope.md R8 on numbers. -/
def add32 (a b : Nat) : Nat := (a + b) % 2 ^ 32

/-- A mixing state as four numbers. -/
def nums (m : Mix) : Nat × Nat × Nat × Nat := (m.v0.toNat, m.v1.toNat, m.v2.toNat, m.v3.toNat)

/-- The pseudocode of 40_keyed_stream_hash.md R90, statement by statement, on numbers. -/
def roundNums (v : Nat × Nat × Nat × Nat) : Nat × Nat × Nat × Nat :=
  let (v0, v1, v2, v3) := v
  let v0 := add32 v0 v1; let v1 := rotl v1 5; let v1 := v1 ^^^ v0; let v0 := rotl v0 16
  let v2 := add32 v2 v3; let v3 := rotl v3 8; let v3 := v3 ^^^ v2
  let v0 := add32 v0 v3; let v3 := rotl v3 7; let v3 := v3 ^^^ v0
  let v2 := add32 v2 v1; let v1 := rotl v1 13; let v1 := v1 ^^^ v2; let v2 := rotl v2 16
  (v0, v1, v2, v3)

/-- `LE32` of 00_scope.md R9. -/
def le (b0 b1 b2 b3 : Byte) : Word :=
  BitVec.ofNat 32 (b0.toNat + 2 ^ 8 * b1.toNat + 2 ^ 16 * b2.toNat + 2 ^ 24 * b3.toNat)

/-- The engine's key bytes are `b`: every byte of the slots `0..K-1` has been written. -/
def KeysAre (s : State) (b : Nat → Byte) : Prop := ∀ a < 8 * s.cfg.k, readKey a s.mem.keys = some (b a)

/-- Key word 0 of slot `i` (20_memory.md R56). -/
def key0 (b : Nat → Byte) (i : Nat) : Word := le (b (8 * i)) (b (8 * i + 1)) (b (8 * i + 2)) (b (8 * i + 3))

/-- Key word 1 of slot `i`. -/
def key1 (b : Nat → Byte) (i : Nat) : Word :=
  le (b (8 * i + 4)) (b (8 * i + 5)) (b (8 * i + 6)) (b (8 * i + 7))

/-- The registers of a lane after `Init` with the key words `k0`, `k1` (R92). -/
def initialized (k0 k1 : Word) : LaneRegs :=
  ⟨⟨k0, k1, k0 ^^^ 0x6C796765, k1 ^^^ 0x74656462⟩, .zero, 0⟩

/-- A chunk the encoding allows: `n` in `0..4`, no data above it (30_encoding.md R72, R75). -/
def LegalChunk (n : BitVec 3) (data : Word) : Prop := n.toNat ≤ 4 ∧ data.toNat < 2 ^ (8 * n.toNat)

/-- The bytes of a chunk, least significant first (30_encoding.md R74). -/
def bytesOf (n : BitVec 3) (data : Word) : List Byte :=
  (List.range n.toNat).map fun j => BitVec.ofNat 8 (data.toNat / 2 ^ (8 * j))

/-- Absorbing a legal chunk (R93, R101): the count advances by `n`; below four bytes in hand nothing is compressed,
else the first four make one little-endian block and the rest stay pending. -/
def Absorbs (c : Nat) (r : LaneRegs) (n : BitVec 3) (data : Word) (r' : LaneRegs) : Prop :=
  let inHand := r.pending.bytes ++ bytesOf n data
  r'.bc.toNat = (r.bc.toNat + n.toNat) % 256
    ∧ (inHand.length < 4 → r'.v = r.v ∧ r'.pending.bytes = inHand)
    ∧ (4 ≤ inHand.length →
        r'.v = compress c (le (inHand.getD 0 0) (inHand.getD 1 0) (inHand.getD 2 0) (inHand.getD 3 0)) r.v
          ∧ r'.pending.bytes = inHand.drop 4)

/-- The registers after `Finalize` (R94): the padded last block with the byte count as its fourth byte compressed,
`0xFF` into `V2`, `D` rounds; the buffer and the count are left. -/
def finalized (c d : Nat) (r : LaneRegs) : LaneRegs :=
  let p := fun j => if j < r.pending.level.toNat then r.pending.bytes.getD j 0 else 0
  let v := compress c (le (p 0) (p 1) (p 2) r.bc) r.v
  { r with v := rounds d { v with v2 := v.v2 ^^^ 0xFF } }

/-- The tag `Finalize` returns (R94). -/
def finalTag (c d : Nat) (r : LaneRegs) : Word := (finalized c d r).v.v1 ^^^ (finalized c d r).v.v3

/-- The state of a fault taken at `s` (60_exceptions.md R172). -/
def faulted (s : State) (cause : BitVec 4) (lane op : Byte) : State := { s with record := ⟨true, cause, lane, op, s.ci⟩ }

/-- The words a command pushes at most (60_exceptions.md R184, R185), by OP code. -/
def pushLimit (op : Nat) : Nat :=
  if op = 0x01 then 2 else if op = 0x12 ∨ op = 0x21 ∨ op = 0x23 ∨ op = 0x34 then 1 else 0

/-- A stream in legal chunks, and its bytes. -/
def LegalChunks (cs : List (BitVec 3 × Word)) : Prop := ∀ p ∈ cs, LegalChunk p.1 p.2
def streamOf (cs : List (BitVec 3 × Word)) : List Byte := cs.flatMap fun p => bytesOf p.1 p.2

/-- The words of `HINIT lane ; HDATA .. ; HFINAL lane` (30_encoding.md R86, HHASH). -/
def hdataWords (lane : Byte) (cs : List (BitVec 3 × Word)) : List CmdWord :=
  cs.map fun p => encode (.hdata lane p.1 p.2)
def hhashWords (lane : Byte) (cs : List (BitVec 3 × Word)) : List CmdWord :=
  encode (.hinit lane) :: hdataWords lane cs ++ [encode (.hfinal lane)]

/-- The words of `KINIT ; KDATA ..`, before KADD or KTEST (30_encoding.md R86, KADDS and KTESTS). -/
def kstreamWords (cs : List (BitVec 3 × Word)) : List CmdWord :=
  encode .kinit :: cs.map fun p => encode (.kdata p.1 p.2)

end Sys2Proof.Claims

open Sys2Proof Sys2Proof.Machine Sys2Proof.Claims

/-! ### Reset, the step, the invariant -/

/-- 10_state.md R42: what every element holds after reset, for every configuration. That `State.reset` is reset with
the example configuration is the model's choice (log 1). -/
def Obligations.ResetLeavesTheSpecValues : Prop :=
  ∀ cfg : Config,
    let s := State.resetWith cfg
    (s.lanes.length = cfg.k ∧ ∀ i < cfg.k, s.lanes[i]? = some Lane.idle)
      ∧ (∀ a, readKey a s.mem.keys = none) ∧ (∀ slot h, s.kval slot h = false)
      ∧ (s.tags.length = cfg.k ∧ ∀ i < cfg.k, s.tags[i]? = some none)
      ∧ (∀ x, bitRead s.mem.bits x = false)
      ∧ s.matched = false
      ∧ s.record.halted = false ∧ s.record.cause = 0 ∧ s.record.flane = 0 ∧ s.record.fop = 0 ∧ s.record.fidx = 0
      ∧ s.ci = 0 ∧ s.resp = []

/-- The invariant holds after reset, for every configuration, `State.reset`'s among them. -/
def Obligations.ResetMeetsTheInvariant : Prop :=
  (∀ cfg : Config, (State.resetWith cfg).Inv) ∧ State.reset.Inv

/-- Every step, of the engine or of the host, keeps the invariant: K lanes, K tag registers, canonical memories
within their sizes with whole key halves, a clear or well-formed fault record, RESP within its depth. The canonical
form of the memory is the model's (log 3, log 5). -/
def Obligations.EveryStepKeepsTheInvariant : Prop :=
  ∀ s t : State, s.Inv → step s = .next t → t.Inv

/-- No command and no step ever stops the machine: misuse is a fault the engine records, and it goes on
(60_exceptions.md R170, R172, R175). That `exec` of a command that is not well formed answers a next state is the
model's choice (log 12), and so is a step of an idle or held engine, of which the spec says that it takes no step
(log 10). -/
def Obligations.EveryStepAnswersANextState : Prop :=
  (∀ (i : Instr) (s : State), ∃ t, exec i s = .next t) ∧ (∀ s : State, ∃ t, step s = .next t)

/-- 10_state.md R35: no step changes a parameter. -/
def Obligations.NoStepChangesTheConfiguration : Prop :=
  ∀ s t : State, step s = .next t → t.cfg = s.cfg

/-- 30_encoding.md R82: a presented word that decodes to a command is executed as `exec` has it, on the state less
that word, and then `CI` advances by one. The port as a queue and the turns are the model's (log 6, log 7). -/
def Obligations.StepRunsTheDecodedCommand : Prop :=
  ∀ (s u t : State) (w : CmdWord) (rest : List CmdWord) (i : Instr),
    s.EngineTurn u → u.port = w :: rest → u.hasRoom (mayPush w) = true → u.record.halted = false →
    decode u.cfg.k w = .op i → exec i { u with port := rest } = .next t →
    step s = .next { t with ci := t.ci + 1 }

/-- 10_state.md R40: CI is 0 after reset; a consumed word, faulting, discarded or not, advances it by one modulo 2^32;
an engine with no word, or held, changes nothing; no move of the host but reset changes CI. That an idle or held
engine's step answers the same state, and the host's moves as steps, are the model's (log 7, log 10). -/
def Obligations.CommandIndexCountsConsumedWords : Prop :=
  (∀ cfg : Config, (State.resetWith cfg).ci = 0)
    ∧ (∀ (s u t : State), s.EngineTurn u → step s = .next t →
        (∀ w rest, u.port = w :: rest →
          (u.hasRoom (mayPush w) = true → t.ci.toNat = (s.ci.toNat + 1) % 2 ^ 32 ∧ t.port = rest)
            ∧ (u.hasRoom (mayPush w) = false → t = u ∧ t.ci = s.ci))
        ∧ (u.port = [] → t = u ∧ t.ci = s.ci))
    ∧ (∀ (s t : State) (m : HostMove) (ms : List HostMove), s.host = m :: ms → m ≠ .wait → m ≠ .assertReset →
        step s = .next t → t.ci = s.ci)
    ∧ (∀ (s t : State) (ms : List HostMove), s.host = .assertReset :: ms → step s = .next t → t.ci = 0)

/-- 60_exceptions.md R185, 70_reset_and_hazards.md R209: with a bounded stream that lacks room for the words the OP
alone may push, the engine takes no step; with room, or an unbounded stream, it consumes the word. That a held
engine's step answers the same state is the model's (log 10). -/
def Obligations.EngineHoldsWithoutRoom : Prop :=
  ∀ (s u t : State) (w : CmdWord) (rest : List CmdWord),
    s.EngineTurn u → u.port = w :: rest → step s = .next t →
    (∀ n, u.cfg.respDepth = some n →
      (n < u.resp.length + pushLimit (w.toNat / 2 ^ 56) → t = u)
        ∧ (u.resp.length + pushLimit (w.toNat / 2 ^ 56) ≤ n → t.port = rest))
      ∧ (u.cfg.respDepth = none → t.port = rest)

/-- 70_reset_and_hazards.md R200, R201: asserting reset leaves the reset state of the same engine; presented words and
unread responses are gone. That the host's own later moves stay is the model's (log 11). -/
def Obligations.ResetMoveResetsTheEngine : Prop :=
  ∀ (s : State) (ms : List HostMove), s.host = .assertReset :: ms →
    step s = .next { State.resetWith s.cfg with host := ms }

/-- 60_exceptions.md R184, R186, R189: a presented word waits behind earlier ones; a read takes the front response and
nothing else (with none there, nothing happens: log 8). -/
def Obligations.HostMovesUseThePortsInOrder : Prop :=
  (∀ (s : State) (w : CmdWord) (ms : List HostMove), s.host = .issue w :: ms →
      step s = .next { s with host := ms, port := s.port ++ [w] })
    ∧ (∀ (s : State) (w : Word) (ws : List Word) (ms : List HostMove), s.host = .readResponse :: ms →
        s.resp = w :: ws → step s = .next { s with host := ms, resp := ws, delivered := s.delivered ++ [w] })
    ∧ (∀ (s : State) (ms : List HostMove), s.host = .readResponse :: ms → s.resp = [] →
        step s = .next { s with host := ms })

/-! ### Encoding -/

/-- Decoding the word of a well-formed command gives the command back, every operand at every value. -/
def Obligations.DecodeInvertsEncode : Prop :=
  ∀ (k : Nat) (i : Instr), i.WellFormed k → decode k (encode i) = .op i

/-- 30_encoding.md R75: a word that decodes to a command is that command's one encoding, and the command is well
formed. -/
def Obligations.EveryCommandHasOneEncoding : Prop :=
  ∀ (k : Nat) (w : CmdWord) (i : Instr), decode k w = .op i → i.WellFormed k ∧ encode i = w

/-- 30_encoding.md R78: the checks in their order, on the fields of R70 as numbers and the table of R76. -/
def Obligations.DecodeChecksInOrder : Prop :=
  ∀ (k : Nat) (w : CmdWord),
    let op := w.toNat / 2 ^ 56
    let lane := w.toNat / 2 ^ 48 % 256
    let rsvA := w.toNat / 2 ^ 44 % 16
    let h := w.toNat / 2 ^ 43 % 2
    let n := w.toNat / 2 ^ 40 % 8
    let rsvB := w.toNat / 2 ^ 32 % 256
    let data := w.toNat % 2 ^ 32
    match fieldUse.lookup op with
    | none => decode k w = .fault .illegalOpcode 0
    | some (usesLane, usesH, usesN, usesData) =>
      if rsvA ≠ 0 ∨ rsvB ≠ 0 ∨ (usesLane = false ∧ lane ≠ 0) ∨ (usesH = false ∧ h ≠ 0) ∨ (usesN = false ∧ n ≠ 0)
          ∨ (usesData = false ∧ data ≠ 0) then
        decode k w = .fault .reservedNonzero 0
      else if usesN = true ∧ 4 < n then decode k w = .fault .badCount 0
      else if usesN = true ∧ n < 4 ∧ data / 2 ^ (8 * n) ≠ 0 then decode k w = .fault .reservedNonzero 0
      else if usesLane = true ∧ k ≤ lane then decode k w = .fault .laneRange (BitVec.ofNat 8 lane)
      else ∃ i, decode k w = .op i ∧ i.op.code.toNat = op ∧ operands i = (lane, h, n, data)

/-- 30_encoding.md R79: the unassigned OP values, and only they, are illegal, whatever the other bits. -/
def Obligations.UnassignedOpcodesAreIllegal : Prop :=
  ∀ (k : Nat) (w : CmdWord),
    let op := w.toNat / 2 ^ 56
    let unassigned := (0x02 ≤ op ∧ op ≤ 0x0F) ∨ (0x13 ≤ op ∧ op ≤ 0x1F) ∨ (0x25 ≤ op ∧ op ≤ 0x2F) ∨ 0x35 ≤ op
    (unassigned → decode k w = .fault .illegalOpcode 0)
      ∧ (¬ unassigned → ∀ lane, decode k w ≠ .fault .illegalOpcode lane)

/-- A few words of 95_test_vectors.md, one of each family, decode to the command the spec writes beside them. -/
def Obligations.SampleWordsDecode : Prop :=
  decode 2 0x0100000000000000 = .op .status
    ∧ decode 2 0x1100020000006568 = .op (.hdata 0 2 0x6568)
    ∧ decode 2 0x20010000FFFFFFFF = .op (.twr 1 0xFFFFFFFF)
    ∧ decode 2 0x3001080017161514 = .op (.kwr 1 .second 0x17161514)
    ∧ decode 2 0x3200010000000061 = .op (.kdata 1 0x61)

/-! ### The hash -/

/-- 40_keyed_stream_hash.md R90 with 00_scope.md R8: the permutation, statement by statement, on numbers. The
hash's constants and word roles are the spec's from general knowledge (log 2). -/
def Obligations.RoundFollowsItsStatements : Prop :=
  ∀ m : Mix, nums (mixRound m) = roundNums (nums m)

/-- 40_keyed_stream_hash.md R90 (its note): distinct mixing states have distinct successors. The hash's constants
and word roles are the spec's from general knowledge (log 2). -/
def Obligations.RoundIsInjective : Prop :=
  ∀ m m' : Mix, mixRound m = mixRound m' → m = m'

/-- 40_keyed_stream_hash.md R98: absorbing a stream byte by byte through the pending buffer and finalizing gives
the closed form, with `L mod 256` in the last block (R99). The hash's constants and word roles are the spec's from
general knowledge (log 2). -/
def Obligations.StreamedTagIsTheClosedForm : Prop :=
  ∀ (c d : Nat) (k0 k1 : Word) (s : List Byte),
    finalTag c d (s.foldl (absorb c) (initialized k0 k1)) = hashTag c d k0 k1 s

/-- 40_keyed_stream_hash.md R97: on an ACTIVE lane, two runs of HDATA whose chunks concatenate to the same bytes
leave the same state, but for the number of commands counted. The hash's constants and word roles are the spec's
from general knowledge (log 2). -/
def Obligations.ChunkingDoesNotMatter : Prop :=
  ∀ (s : State) (lane : Byte) (r : LaneRegs) (cs cs' : List (BitVec 3 × Word)),
    s.record.halted = false → lane.toNat < s.cfg.k → s.lanes[lane.toNat]? = some (.active r) →
    LegalChunks cs → LegalChunks cs' → streamOf cs = streamOf cs' →
    ∃ t t', runWords (hdataWords lane cs) s = .next t ∧ runWords (hdataWords lane cs') s = .next t'
      ∧ { t with ci := s.ci } = { t' with ci := s.ci }
      ∧ t.lanes[lane.toNat]? = some (.active ((streamOf cs).foldl (absorb s.cfg.c) r))

/-- `HINIT ; HDATA .. ; HFINAL` on a lane with a written slot delivers `H(key, stream)` (40_keyed_stream_hash.md
R97, R98, R102), in RESP and in the tag register, and touches nothing else but the lane and `CI`. The hash's
constants and word roles are the spec's from general knowledge (log 2). -/
def Obligations.HashSequenceDeliversTheTag : Prop :=
  ∀ (s : State) (lane : Byte) (b : Nat → Byte) (cs : List (BitVec 3 × Word)),
    s.record.halted = false → lane.toNat < s.cfg.k → s.lanes.length = s.cfg.k → s.tags.length = s.cfg.k →
    (∀ j < 8, readKey (8 * lane.toNat + j) s.mem.keys = some (b (8 * lane.toNat + j))) → LegalChunks cs →
    let tag := hashTag s.cfg.c s.cfg.d (key0 b lane.toNat) (key1 b lane.toNat) (streamOf cs)
    ∃ r, runWords (hhashWords lane cs) s =
      .next { s with lanes := s.lanes.set lane.toNat (.done r), tags := s.tags.set lane.toNat (some tag),
                     resp := s.resp ++ [tag], ci := s.ci + BitVec.ofNat 32 (cs.length + 2) }

/-! ### Results of the commands, with their frames

Each conclusion is `exec i s = .next t` with `t` written out as `s` with the fields the command writes: every field not
named is unchanged. -/

/-- 43_system.md R160: the all-zero word only advances `CI`; a word with OP 0 and any other bit set faults with
RESERVED_NONZERO; while halted it is discarded. -/
def Obligations.NopOnlyAdvancesTheIndex : Prop :=
  (∀ s : State, exec .nop s = .next s)
    ∧ encode .nop = 0
    ∧ (∀ (s u : State) (w : CmdWord) (rest : List CmdWord), s.EngineTurn u → u.port = w :: rest →
        u.hasRoom 0 = true → w.toNat < 2 ^ 56 →
        step s = .next
          (if w = 0 ∨ u.record.halted = true then { u with port := rest, ci := u.ci + 1 }
           else { faulted u 2 0 0 with port := rest, ci := u.ci + 1 }))

/-- 43_system.md R161, 10_state.md R33: STATUS pushes the status word, whose fields are as R33 lays them out, then
FIDX. -/
def Obligations.StatusPushesTheStatusWord : Prop :=
  ∀ s : State, ∃ w : Word,
    exec .status s = .next { s with resp := s.resp ++ [w, s.record.fidx] }
      ∧ w.toNat % 2 = s.record.halted.toNat ∧ w.toNat / 2 % 16 = s.record.cause.toNat
      ∧ w.toNat / 2 ^ 5 % 2 = s.matched.toNat ∧ w.toNat / 2 ^ 6 % 4 = 0
      ∧ w.toNat / 2 ^ 8 % 256 = s.record.flane.toNat ∧ w.toNat / 2 ^ 16 % 256 = s.record.fop.toNat
      ∧ w.toNat / 2 ^ 24 = 0

/-- 40_keyed_stream_hash.md R100, R92: HINIT of a lane whose slot is written loads the lane from the slot's bytes.
The hash's constants and word roles are the spec's from general knowledge (log 2). -/
def Obligations.HinitLoadsTheKey : Prop :=
  ∀ (s : State) (lane : Byte) (b : Nat → Byte), lane.toNat < s.cfg.k →
    (∀ j < 8, readKey (8 * lane.toNat + j) s.mem.keys = some (b (8 * lane.toNat + j))) →
    exec (.hinit lane) s =
      .next { s with
        lanes := s.lanes.set lane.toNat (.active (initialized (key0 b lane.toNat) (key1 b lane.toNat))) }

/-- 40_keyed_stream_hash.md R101, R93: HDATA on an ACTIVE lane absorbs the chunk, completing at most one block. The
hash's constants and word roles are the spec's from general knowledge (log 2). -/
def Obligations.HdataAbsorbsTheChunk : Prop :=
  ∀ (s : State) (lane : Byte) (n : BitVec 3) (data : Word) (r : LaneRegs),
    lane.toNat < s.cfg.k → LegalChunk n data → s.lanes[lane.toNat]? = some (.active r) →
    ∃ r', Absorbs s.cfg.c r n data r'
      ∧ exec (.hdata lane n data) s = .next { s with lanes := s.lanes.set lane.toNat (.active r') }

/-- 40_keyed_stream_hash.md R102, R94: HFINAL on an ACTIVE lane finalizes it, writes the tag and pushes it. The
hash's constants and word roles are the spec's from general knowledge (log 2). -/
def Obligations.HfinalDeliversTheTag : Prop :=
  ∀ (s : State) (lane : Byte) (r : LaneRegs),
    lane.toNat < s.cfg.k → s.lanes[lane.toNat]? = some (.active r) →
    exec (.hfinal lane) s =
      .next { s with lanes := s.lanes.set lane.toNat (.done (finalized s.cfg.c s.cfg.d r)),
                     tags := s.tags.set lane.toNat (some (finalTag s.cfg.c s.cfg.d r)),
                     resp := s.resp ++ [finalTag s.cfg.c s.cfg.d r] }

/-- 41_bit_filter.md R121, R122: TWR writes one tag register, whatever the lane's status, and TRD of it pushes the
value back, all 32 bits. -/
def Obligations.TagRegisterReadsBackWhatWasWritten : Prop :=
  ∀ (s : State) (lane : Byte) (data : Word), lane.toNat < s.cfg.k → s.tags.length = s.cfg.k →
    ∃ t, exec (.twr lane data) s = .next t ∧ t = { s with tags := s.tags.set lane.toNat (some data) }
      ∧ t.tags[lane.toNat]? = some (some data)
      ∧ exec (.trd lane) t = .next { t with resp := t.resp ++ [data] }

/-- 41_bit_filter.md R122: TRD pushes the tag register and does nothing else. -/
def Obligations.TrdPushesTheTag : Prop :=
  ∀ (s : State) (lane : Byte) (tag : Word), lane.toNat < s.cfg.k → s.tags[lane.toNat]? = some (some tag) →
    exec (.trd lane) s = .next { s with resp := s.resp ++ [tag] }

/-- 41_bit_filter.md R120: the index is the low LOG2M bits of the tag, so it is in range. -/
def Obligations.IndexIsTheLowTagBits : Prop :=
  ∀ (cfg : Config) (t : Word), idx cfg.log2m t = t.toNat % cfg.m ∧ idx cfg.log2m t < cfg.m

/-- 41_bit_filter.md R123: BADD with every tag valid sets exactly the bits the tags select. -/
def Obligations.BaddSetsTheTagBits : Prop :=
  ∀ (s : State) (tag : Nat → Word), (∀ i < s.cfg.k, s.tags[i]? = some (some (tag i))) →
    ∃ bits, exec .badd s = .next { s with mem := { s.mem with bits := bits } }
      ∧ ∀ x, bitRead bits x = true ↔
          (bitRead s.mem.bits x = true ∨ ∃ i < s.cfg.k, x = (tag i).toNat % s.cfg.m)

/-- 41_bit_filter.md R124: BTEST with every tag valid puts the AND of the selected bits into MATCH and RESP. -/
def Obligations.BtestIsTheConjunction : Prop :=
  ∀ (s : State) (tag : Nat → Word), (∀ i < s.cfg.k, s.tags[i]? = some (some (tag i))) →
    ∃ r : Bool, (r = true ↔ ∀ i < s.cfg.k, bitRead s.mem.bits ((tag i).toNat % s.cfg.m) = true)
      ∧ exec .btest s = .next { s with matched := r, resp := s.resp ++ [if r then 1 else 0] }

/-- 41_bit_filter.md R125: BCLEAR makes every bit 0 and changes nothing else. -/
def Obligations.BclearClearsEveryBit : Prop :=
  ∀ s : State, ∃ bits, exec .bclear s = .next { s with mem := { s.mem with bits := bits } }
    ∧ ∀ x, bitRead bits x = false

/-- 42_keyed_bit_filter.md R141, 10_state.md R28: KWR writes the four bytes of one half, least significant first, and
sets that half's KVAL; every other byte reads as before. -/
def Obligations.KwrWritesOneHalf : Prop :=
  ∀ (s : State) (slot : Byte) (h : Half) (data : Word), slot.toNat < s.cfg.k →
    let start := 8 * slot.toNat + (match h with | .first => 0 | .second => 4)
    ∃ t, exec (.kwr slot h data) s = .next t
      ∧ t = { s with mem := { keys := t.mem.keys, bits := s.mem.bits } }
      ∧ (∀ j < 4, readKey (start + j) t.mem.keys = some (BitVec.ofNat 8 (data.toNat / 2 ^ (8 * j))))
      ∧ (∀ a, (a < start ∨ start + 4 ≤ a) → readKey a t.mem.keys = readKey a s.mem.keys)
      ∧ t.kval slot.toNat h = true

/-- 42_keyed_bit_filter.md R142: KINIT with every slot written loads every lane from its slot. The hash's constants
and word roles are the spec's from general knowledge (log 2). -/
def Obligations.KinitLoadsEveryLane : Prop :=
  ∀ (s : State) (b : Nat → Byte), KeysAre s b →
    exec .kinit s =
      .next { s with lanes := (List.range s.cfg.k).map fun i => .active (initialized (key0 b i) (key1 b i)) }

/-- 42_keyed_bit_filter.md R143: KDATA with every lane ACTIVE absorbs the chunk into every lane. The hash's
constants and word roles are the spec's from general knowledge (log 2). -/
def Obligations.KdataAbsorbsIntoEveryLane : Prop :=
  ∀ (s : State) (n : BitVec 3) (data : Word) (r : Nat → LaneRegs), LegalChunk n data →
    (∀ i < s.cfg.k, s.lanes[i]? = some (.active (r i))) →
    ∃ r' : Nat → LaneRegs, (∀ i < s.cfg.k, Absorbs s.cfg.c (r i) n data (r' i))
      ∧ exec (.kdata n data) s = .next { s with lanes := (List.range s.cfg.k).map fun i => .active (r' i) }

/-- 42_keyed_bit_filter.md R144: KADD with every lane ACTIVE finalizes every lane, writes every tag and sets
exactly the bits the new tags select; it pushes nothing. The hash's constants and word roles are the spec's from
general knowledge (log 2). -/
def Obligations.KaddAddsTheTags : Prop :=
  ∀ (s : State) (r : Nat → LaneRegs), (∀ i < s.cfg.k, s.lanes[i]? = some (.active (r i))) →
    let tag := fun i => finalTag s.cfg.c s.cfg.d (r i)
    ∃ bits, exec .kadd s =
        .next { s with lanes := (List.range s.cfg.k).map fun i => .done (finalized s.cfg.c s.cfg.d (r i)),
                       tags := (List.range s.cfg.k).map fun i => some (tag i),
                       mem := { s.mem with bits := bits } }
      ∧ ∀ x, bitRead bits x = true ↔
          (bitRead s.mem.bits x = true ∨ ∃ i < s.cfg.k, x = (tag i).toNat % s.cfg.m)

/-- 42_keyed_bit_filter.md R145: KTEST with every lane ACTIVE finalizes every lane and writes every tag, whatever
the bits, and puts the AND of the selected bits into MATCH and RESP. The hash's constants and word roles are the
spec's from general knowledge (log 2). -/
def Obligations.KtestTestsTheTags : Prop :=
  ∀ (s : State) (r : Nat → LaneRegs), (∀ i < s.cfg.k, s.lanes[i]? = some (.active (r i))) →
    let tag := fun i => finalTag s.cfg.c s.cfg.d (r i)
    ∃ b : Bool, (b = true ↔ ∀ i < s.cfg.k, bitRead s.mem.bits ((tag i).toNat % s.cfg.m) = true)
      ∧ exec .ktest s =
          .next { s with lanes := (List.range s.cfg.k).map fun i => .done (finalized s.cfg.c s.cfg.d (r i)),
                         tags := (List.range s.cfg.k).map fun i => some (tag i),
                         matched := b, resp := s.resp ++ [if b then 1 else 0] }

/-! ### Faults -/

/-- 60_exceptions.md R171 (causes 3, 5, 6, 7 of the single-lane commands), R173: a lane out of range faults first;
then the command's state check. Each fault changes the fault record and nothing else. That `exec` of a command the
decoder would refuse takes the decoder's fault is the model's (log 12). -/
def Obligations.SingleLaneChecksFault : Prop :=
  (∀ (s : State) (lane : Byte), s.cfg.k ≤ lane.toNat →
      exec (.hinit lane) s = .next (faulted s 3 lane 0x10)
        ∧ exec (.hfinal lane) s = .next (faulted s 3 lane 0x12)
        ∧ exec (.trd lane) s = .next (faulted s 3 lane 0x21)
        ∧ (∀ data, exec (.twr lane data) s = .next (faulted s 3 lane 0x20))
        ∧ (∀ h data, exec (.kwr lane h data) s = .next (faulted s 3 lane 0x30))
        ∧ (∀ n data, LegalChunk n data → exec (.hdata lane n data) s = .next (faulted s 3 lane 0x11)))
    ∧ (∀ (s : State) (lane : Byte), lane.toNat < s.cfg.k →
      ((s.kval lane.toNat .first = false ∨ s.kval lane.toNat .second = false) →
          exec (.hinit lane) s = .next (faulted s 5 lane 0x10))
        ∧ ((∀ r, s.lanes[lane.toNat]? ≠ some (.active r)) →
          exec (.hfinal lane) s = .next (faulted s 6 lane 0x12)
            ∧ ∀ n data, LegalChunk n data → exec (.hdata lane n data) s = .next (faulted s 6 lane 0x11))
        ∧ ((∀ tag, s.tags[lane.toNat]? ≠ some (some tag)) →
          exec (.trd lane) s = .next (faulted s 7 lane 0x21)))

/-- 60_exceptions.md R174: a K-lane command reports the lowest slot, lane or tag that fails its check, and changes
nothing but the fault record. -/
def Obligations.LowestFailingIndexIsReported : Prop :=
  ∀ (s : State) (i : Nat), i < s.cfg.k →
    ((∀ j < i, s.kval j .first = true ∧ s.kval j .second = true) →
        (s.kval i .first = false ∨ s.kval i .second = false) →
        exec .kinit s = .next (faulted s 5 (BitVec.ofNat 8 i) 0x31))
      ∧ ((∀ j < i, ∃ r, s.lanes[j]? = some (.active r)) → (∀ r, s.lanes[i]? ≠ some (.active r)) →
        exec .kadd s = .next (faulted s 6 (BitVec.ofNat 8 i) 0x33)
          ∧ exec .ktest s = .next (faulted s 6 (BitVec.ofNat 8 i) 0x34)
          ∧ ∀ n data, LegalChunk n data → exec (.kdata n data) s = .next (faulted s 6 (BitVec.ofNat 8 i) 0x32))
      ∧ ((∀ j < i, ∃ tag, s.tags[j]? = some (some tag)) → (∀ tag, s.tags[i]? ≠ some (some tag)) →
        exec .badd s = .next (faulted s 7 (BitVec.ofNat 8 i) 0x22)
          ∧ exec .btest s = .next (faulted s 7 (BitVec.ofNat 8 i) 0x23))

/-- 60_exceptions.md R172: a word that decodes to a fault verdict records it; a command that raises a fault, in
decode or in execution, changes the fault record, the consumed word and `CI`, and nothing else; the record names
the word's OP field and index. The port as a queue and the turns are the model's (log 6, log 7). -/
def Obligations.FaultsArePrecise : Prop :=
  (∀ (s u : State) (w : CmdWord) (rest : List CmdWord) (cause : Cause) (lane : Byte),
      s.EngineTurn u → u.port = w :: rest → u.hasRoom (mayPush w) = true → u.record.halted = false →
      decode u.cfg.k w = .fault cause lane →
      step s = .next { faulted u cause.code lane (w.extractLsb' 56 8) with port := rest, ci := u.ci + 1 })
    ∧ (∀ (s u t : State) (w : CmdWord) (rest : List CmdWord),
      s.EngineTurn u → u.port = w :: rest → u.record.halted = false → step s = .next t → t.record.halted = true →
      ∃ (cause : Cause) (lane : Byte),
        t = { faulted u cause.code lane (w.extractLsb' 56 8) with port := rest, ci := u.ci + 1 })

/-- 60_exceptions.md R175: while halted the STATUS word pushes its two words, and every other consumed word only
advances `CI`. That the room test applies while halted too is the model's reading (log 10). -/
def Obligations.HaltedEngineOnlyAnswersStatus : Prop :=
  ∀ (s u : State) (w : CmdWord) (rest : List CmdWord),
    s.EngineTurn u → u.port = w :: rest → u.hasRoom (mayPush w) = true → u.record.halted = true →
    step s = .next
      (if w = 0x0100000000000000 then
        { u with port := rest, ci := u.ci + 1, resp := u.resp ++ [statusWord u, u.record.fidx] }
       else { u with port := rest, ci := u.ci + 1 })

/-- 60_exceptions.md R176: once halted, the record stays as it is until the host asserts reset. Reset is the host's
move (log 7). -/
def Obligations.OnlyResetLeavesTheHaltedState : Prop :=
  ∀ s t : State, s.record.halted = true → step s = .next t →
    t.record = s.record ∨ (∃ ms, s.host = .assertReset :: ms ∧ t.record = FaultRecord.clear)

/-! ### Who writes what -/

/-- 10_state.md R22, R28 to R32, R34, 20_memory.md R50: MATCH, the bits, the keys, the tags, the lanes, RESP and the
fault record are each written only by the commands the spec names, RESP only at its end and the fault record only by a
fault that changes nothing else. The tags' and keys' validity is never taken back. No command touches the command
port, the host's moves and reads, the configuration or `CI`, which the command cycle advances. -/
def Obligations.CommandsWriteOnlyTheirState : Prop :=
  ∀ (i : Instr) (s t : State), exec i s = .next t →
    (t.ci = s.ci ∧ t.port = s.port ∧ t.host = s.host ∧ t.delivered = s.delivered ∧ t.cfg = s.cfg)
      ∧ (t.matched ≠ s.matched → i.op = .btest ∨ i.op = .ktest)
      ∧ (t.mem.bits ≠ s.mem.bits → i.op = .badd ∨ i.op = .kadd ∨ i.op = .bclear)
      ∧ (t.mem.keys ≠ s.mem.keys → i.op = .kwr)
      ∧ (t.tags ≠ s.tags → i.op = .hfinal ∨ i.op = .kadd ∨ i.op = .ktest ∨ i.op = .twr)
      ∧ (t.lanes ≠ s.lanes → i.op = .hinit ∨ i.op = .hdata ∨ i.op = .hfinal ∨ i.op = .kinit ∨ i.op = .kdata
          ∨ i.op = .kadd ∨ i.op = .ktest)
      ∧ ((∃ ws, t.resp = s.resp ++ ws)
        ∧ (t.resp ≠ s.resp → i.op = .hfinal ∨ i.op = .trd ∨ i.op = .btest ∨ i.op = .ktest ∨ i.op = .status))
      ∧ (t.record ≠ s.record → ∃ (cause : Cause) (lane : Byte), t = Claims.faulted s cause.code lane i.op.code)
      ∧ (∀ a, (readKey a s.mem.keys).isSome = true → (readKey a t.mem.keys).isSome = true)
      ∧ (s.tags.length = s.cfg.k → ∀ (j : Nat) (tag : Word), s.tags[j]? = some (some tag) →
          ∃ tag', t.tags[j]? = some (some tag'))

/-- 40_keyed_stream_hash.md R95: a lane becomes ACTIVE only by HINIT of it or KINIT, becomes DONE only from ACTIVE by
HFINAL of it, KADD or KTEST, and no command makes it IDLE. -/
def Obligations.LaneTransitionsAreTheTable : Prop :=
  ∀ (i : Instr) (s t : State) (j : Nat) (l l' : Lane), exec i s = .next t →
    s.lanes[j]? = some l → t.lanes[j]? = some l' → l.ls ≠ l'.ls →
    (l'.ls = 1 ∧ (i = .kinit ∨ ∃ lane : Byte, lane.toNat = j ∧ i = .hinit lane))
      ∨ (l.ls = 1 ∧ l'.ls = 2 ∧ (i = .kadd ∨ i = .ktest ∨ ∃ lane : Byte, lane.toNat = j ∧ i = .hfinal lane))

/-- 60_exceptions.md R184: what each command appends to RESP, by command; a faulting command appends nothing. -/
def Obligations.ResponsesAreTheTable : Prop :=
  ∀ (i : Instr) (s t : State), s.tags.length = s.cfg.k → s.record.halted = false → exec i s = .next t →
    ∃ ws, t.resp = s.resp ++ ws ∧
      (if t.record.halted = true then ws = []
       else match i with
         | .hfinal lane => ∃ tag, ws = [tag] ∧ t.tags[lane.toNat]? = some (some tag)
         | .trd lane => ∃ tag, ws = [tag] ∧ s.tags[lane.toNat]? = some (some tag)
         | .btest | .ktest => ws = [if t.matched then 1 else 0]
         | .status => ws = [statusWord s, s.record.fidx]
         | .nop | .hinit _ | .hdata _ _ _ | .twr _ _ | .badd | .bclear | .kwr _ _ _ | .kinit | .kdata _ _ | .kadd =>
           ws = [])

/-- 42_keyed_bit_filter.md R148: keys are read only by Init: a command other than HINIT, KINIT and KWR does the
same whatever the key store holds. The spec marks R148 as its own inference ("derived"). -/
def Obligations.KeysAreReadOnlyByInit : Prop :=
  ∀ (i : Instr) (s t : State) (keys : List Host.Cell),
    i.op ≠ .hinit → i.op ≠ .kinit → i.op ≠ .kwr → exec i s = .next t →
    exec i { s with mem := { s.mem with keys := keys } } = .next { t with mem := { t.mem with keys := keys } }

/-! ### The filter -/

/-- 20_memory.md R60: a second BADD with the same tags changes nothing. The spec marks this as its own inference
("derived") from R60 and R123. -/
def Obligations.BaddIsIdempotent : Prop :=
  ∀ s t : State, s.mem.wf = true → exec .badd s = .next t → t.record = s.record → exec .badd t = .next t

/-- 41_bit_filter.md R128: only BCLEAR and reset clear a bit. The spec marks this as its own inference ("derived")
from R123 and R125. -/
def Obligations.BitArrayOnlyGrows : Prop :=
  ∀ (s t : State) (x : Nat), step s = .next t → bitRead s.mem.bits x = true →
    bitRead t.mem.bits x = true ∨ (∃ ms, s.host = .assertReset :: ms)
      ∨ (∃ u rest, s.EngineTurn u ∧ u.port = encode .bclear :: rest)

/-- 41_bit_filter.md R126: after BADD with tags T, whatever commands but BCLEAR run, BTEST with the same tags
pushes 1. The spec marks this as its own inference ("derived") from R123, R124 and R125. -/
def Obligations.AddedTagsAlwaysTestTrue : Prop :=
  ∀ (s t u : State) (tag : Nat → Word) (ws : List CmdWord),
    s.record.halted = false → (∀ i < s.cfg.k, s.tags[i]? = some (some (tag i))) →
    runWord (encode .badd) s = .next t → (∀ w ∈ ws, w ≠ encode .bclear) → runWords ws t = .next u →
    (∀ i < s.cfg.k, u.tags[i]? = some (some (tag i))) →
    exec .btest u = .next { u with matched := true, resp := u.resp ++ [1] }

/-- 41_bit_filter.md R127: reset and BCLEAR leave every bit 0; whatever words but BADD and KADD run, every bit is
still 0, and a BTEST or KTEST that does not fault pushes 0. The spec marks this as its own inference ("derived") from
R1, R124 and R125. -/
def Obligations.EmptyFilterTestsFalse : Prop :=
  (∀ cfg : Config, ∀ x, bitRead (State.resetWith cfg).mem.bits x = false)
    ∧ (∀ s t : State, exec .bclear s = .next t → ∀ x, bitRead t.mem.bits x = false)
    ∧ (∀ (s t : State) (ws : List CmdWord),
        (∀ x, bitRead s.mem.bits x = false) → (∀ w ∈ ws, w ≠ encode .badd ∧ w ≠ encode .kadd) →
        runWords ws s = .next t → ∀ x, bitRead t.mem.bits x = false)
    ∧ (∀ (t u : State) (i : Instr), (∀ x, bitRead t.mem.bits x = false) → i = .btest ∨ i = .ktest →
        exec i t = .next u → t.record.halted = false → u.record.halted = false →
        u.matched = false ∧ u.resp = t.resp ++ [0])

/-- 42_keyed_bit_filter.md R146: `KINIT ; KDATA .. ; KADD` sets exactly the bits of `H(slot i, input)` for every i,
and with KTEST in place of KADD pushes whether all of them are set, for every split of the input. The spec marks
R146 as its own inference ("derived") from R142 to R145, R97 and R98; the hash is that of log 2. -/
def Obligations.KeyedSequencesAddAndTest : Prop :=
  ∀ (s : State) (b : Nat → Byte) (cs : List (BitVec 3 × Word)),
    s.record.halted = false → KeysAre s b → LegalChunks cs →
    let index := fun i => (hashTag s.cfg.c s.cfg.d (key0 b i) (key1 b i) (streamOf cs)).toNat % s.cfg.m
    (∃ t, runWords (kstreamWords cs ++ [encode .kadd]) s = .next t ∧ t.record = s.record ∧ t.resp = s.resp
        ∧ ∀ x, bitRead t.mem.bits x = true ↔ (bitRead s.mem.bits x = true ∨ ∃ i < s.cfg.k, x = index i))
      ∧ (∃ (t : State) (r : Bool), runWords (kstreamWords cs ++ [encode .ktest]) s = .next t ∧ t.record = s.record
        ∧ t.mem = s.mem ∧ (r = true ↔ ∀ i < s.cfg.k, bitRead s.mem.bits (index i) = true)
        ∧ t.matched = r ∧ t.resp = s.resp ++ [if r then 1 else 0])

/-- 42_keyed_bit_filter.md R147: once an input has been added, and while no BCLEAR runs and the keys hold the same
bytes, every later KTEST sequence of that input, in any chunks, pushes 1. The spec marks R147 as its own inference
("derived") from R146, R103 and R126; the hash is that of log 2. -/
def Obligations.AddedInputsAlwaysTestTrue : Prop :=
  ∀ (s t u : State) (b : Nat → Byte) (cs cs' : List (BitVec 3 × Word)) (ws : List CmdWord),
    s.record.halted = false → KeysAre s b → LegalChunks cs → LegalChunks cs' → streamOf cs = streamOf cs' →
    runWords (kstreamWords cs ++ [encode .kadd]) s = .next t → (∀ w ∈ ws, w ≠ encode .bclear) →
    runWords ws t = .next u → u.record.halted = false → KeysAre u b →
    ∃ v, runWords (kstreamWords cs' ++ [encode .ktest]) u = .next v ∧ v.matched = true ∧ v.resp = u.resp ++ [1]

/-! ### Compression and the round counts, and the end of a run -/

/-- 40_keyed_stream_hash.md R91, R94: the block word goes into V3, then `C` rounds, then into V0; and the finalization's
`D` rounds are the round `D` times. On numbers, with the round written out statement by statement (R90). The constants
and word roles are the spec's from general knowledge (log 2). -/
def Obligations.CompressionIsXorRoundsXor : Prop :=
  (∀ (c : Nat) (m : Word) (v : Mix),
      let (v0, v1, v2, v3) := roundNums^[c] (v.v0.toNat, v.v1.toNat, v.v2.toNat, v.v3.toNat ^^^ m.toNat)
      nums (compress c m v) = (v0 ^^^ m.toNat, v1, v2, v3))
    ∧ (∀ (d : Nat) (v : Mix), nums (rounds d v) = roundNums^[d] (nums v))

/-- 60_exceptions.md R190: a run has ended exactly when every presented word is consumed and the host presents none
before its next reset; then it is faulted or successful by HALTED; and until that reset no step changes that, or the
observation. What the model takes for the next run's commands and for RESP in the observation is log 15. -/
def Obligations.EndedRunsKeepTheirObservation : Prop :=
  (∀ s : State, s.ended = true ↔
      s.port = [] ∧ ∀ (pre post : List HostMove) (w : CmdWord), s.host = pre ++ .issue w :: post → .assertReset ∈ pre)
    ∧ (∀ s : State, s.ended = true → s.faulted = s.record.halted ∧ s.succeeded = !s.record.halted)
    ∧ (∀ s t : State, s.ended = true → step s = .next t → (∀ ms, s.host ≠ .assertReset :: ms) →
        t.ended = true ∧ t.observation = s.observation ∧ t.observation = some s.observe)
    ∧ (∀ (s t : State) (ms : List HostMove), s.host = .readResponse :: ms → step s = .next t → t.observe = s.observe)
end

