-- ==== Sys2Proof/Laws/Decode.lean ====
section
/-! SUPPORT. The opcode map read both ways, the fields of a packed word, and the operand checks against
well-formedness. -/

namespace Sys2Proof

theorem Op.ofCode?_code (op : Op) : Op.ofCode? op.code = some op := by cases op <;> rfl

theorem Op.code_of_ofCode? : ∀ {b : Byte} {op : Op}, Op.ofCode? b = some op → op.code = b := by decide

/-- The operand checks of R78 pass exactly on well-formed commands. -/
theorem operandFault_eq_none {k : Nat} {i : Instr} : operandFault k i = none ↔ i.WellFormed k := by
  cases i <;> simp [operandFault, laneFault, chunkFault, Instr.WellFormed, Instr.wf]
  case hdata lane n data =>
    cases laneInRange k lane <;> cases countLegal n <;> cases chunkClean n data <;> simp
  case kdata n data => cases countLegal n <;> cases chunkClean n data <;> simp

/-! ### The fields as numbers -/

section Fields

variable (w : CmdWord)

theorem opField_toNat : (opField w).toNat = w.toNat / 2 ^ 56 := by
  simp [opField, BitVec.extractLsb'_toNat, Nat.shiftRight_eq_div_pow]; omega
theorem laneField_toNat : (laneField w).toNat = w.toNat / 2 ^ 48 % 256 := by
  simp [laneField, BitVec.extractLsb'_toNat, Nat.shiftRight_eq_div_pow]
theorem rsvAField_toNat : (rsvAField w).toNat = w.toNat / 2 ^ 44 % 16 := by
  simp [rsvAField, BitVec.extractLsb'_toNat, Nat.shiftRight_eq_div_pow]
theorem hField_toNat : (hField w).toNat = w.toNat / 2 ^ 43 % 2 := by
  simp [hField, BitVec.extractLsb'_toNat, Nat.shiftRight_eq_div_pow]
theorem nField_toNat : (nField w).toNat = w.toNat / 2 ^ 40 % 8 := by
  simp [nField, BitVec.extractLsb'_toNat, Nat.shiftRight_eq_div_pow]
theorem rsvBField_toNat : (rsvBField w).toNat = w.toNat / 2 ^ 32 % 256 := by
  simp [rsvBField, BitVec.extractLsb'_toNat, Nat.shiftRight_eq_div_pow]
theorem dataField_toNat : (dataField w).toNat = w.toNat % 2 ^ 32 := by
  simp [dataField, BitVec.extractLsb'_toNat]

end Fields

section Pack

variable (op lane : Byte) (h : BitVec 1) (n : BitVec 3) (data : Word)

theorem packFields_toNat : (packFields op lane h n data).toNat =
    op.toNat * 2 ^ 56 + lane.toNat * 2 ^ 48 + h.toNat * 2 ^ 43 + n.toNat * 2 ^ 40 + data.toNat := by
  have := data.isLt
  have := n.isLt
  have := h.isLt
  have := lane.isLt
  have := op.isLt
  simp only [packFields, BitVec.toNat_append, BitVec.ofNat_eq_ofNat, BitVec.toNat_ofNat, Nat.zero_mod]
  rw [← Nat.shiftLeft_add_eq_or_of_lt, ← Nat.shiftLeft_add_eq_or_of_lt, ← Nat.shiftLeft_add_eq_or_of_lt,
    ← Nat.shiftLeft_add_eq_or_of_lt, ← Nat.shiftLeft_add_eq_or_of_lt, ← Nat.shiftLeft_add_eq_or_of_lt]
  all_goals try simp only [Nat.shiftLeft_eq]
  all_goals omega

@[simp] theorem opField_pack : opField (packFields op lane h n data) = op := by
  apply BitVec.eq_of_toNat_eq; rw [opField_toNat, packFields_toNat]; omega
@[simp] theorem laneField_pack : laneField (packFields op lane h n data) = lane := by
  apply BitVec.eq_of_toNat_eq; rw [laneField_toNat, packFields_toNat]; omega
@[simp] theorem rsvAField_pack : rsvAField (packFields op lane h n data) = 0 := by
  apply BitVec.eq_of_toNat_eq; rw [rsvAField_toNat, packFields_toNat, show (0 : BitVec 4).toNat = 0 from rfl]; omega
@[simp] theorem hField_pack : hField (packFields op lane h n data) = h := by
  apply BitVec.eq_of_toNat_eq; rw [hField_toNat, packFields_toNat]; omega
@[simp] theorem nField_pack : nField (packFields op lane h n data) = n := by
  apply BitVec.eq_of_toNat_eq; rw [nField_toNat, packFields_toNat]; omega
@[simp] theorem rsvBField_pack : rsvBField (packFields op lane h n data) = 0 := by
  apply BitVec.eq_of_toNat_eq; rw [rsvBField_toNat, packFields_toNat, show (0 : Byte).toNat = 0 from rfl]; omega
@[simp] theorem dataField_pack : dataField (packFields op lane h n data) = data := by
  apply BitVec.eq_of_toNat_eq; rw [dataField_toNat, packFields_toNat]; omega

end Pack

/-- The OP field of a command's word is the code of its opcode (R77). -/
theorem opField_encode (i : Instr) : opField (encode i) = i.op.code := by
  cases i <;> simp only [encode, opField_pack] <;> rfl

@[simp] theorem Half.ofBit_bit (h : Half) : Half.ofBit h.bit = h := by cases h <;> rfl

theorem Half.bit_ofBit : ∀ b : BitVec 1, (Half.ofBit b).bit = b := by decide

end Sys2Proof
end

