-- ==== Sys2Proof/Laws/State.lean ====
section
/-! SUPPORT. One lemma per field per update of the state, each true by rfl: no later proof unfolds a record
update. -/

namespace Sys2Proof.Machine

open Sys2Proof

variable (s : State)

@[simp] theorem State.setLane_cfg (i : Nat) (l : Lane) : (s.setLane i l).cfg = s.cfg := rfl
@[simp] theorem State.setLane_lanes (i : Nat) (l : Lane) : (s.setLane i l).lanes = s.lanes.set i l := rfl
@[simp] theorem State.setLane_tags (i : Nat) (l : Lane) : (s.setLane i l).tags = s.tags := rfl
@[simp] theorem State.setLane_mem (i : Nat) (l : Lane) : (s.setLane i l).mem = s.mem := rfl
@[simp] theorem State.setLane_matched (i : Nat) (l : Lane) : (s.setLane i l).matched = s.matched := rfl
@[simp] theorem State.setLane_record (i : Nat) (l : Lane) : (s.setLane i l).record = s.record := rfl
@[simp] theorem State.setLane_ci (i : Nat) (l : Lane) : (s.setLane i l).ci = s.ci := rfl
@[simp] theorem State.setLane_resp (i : Nat) (l : Lane) : (s.setLane i l).resp = s.resp := rfl
@[simp] theorem State.setLane_port (i : Nat) (l : Lane) : (s.setLane i l).port = s.port := rfl
@[simp] theorem State.setLane_host (i : Nat) (l : Lane) : (s.setLane i l).host = s.host := rfl
@[simp] theorem State.setLane_delivered (i : Nat) (l : Lane) : (s.setLane i l).delivered = s.delivered := rfl

@[simp] theorem State.setLanes_cfg (ls : List Lane) : (s.setLanes ls).cfg = s.cfg := rfl
@[simp] theorem State.setLanes_lanes (ls : List Lane) : (s.setLanes ls).lanes = ls := rfl
@[simp] theorem State.setLanes_tags (ls : List Lane) : (s.setLanes ls).tags = s.tags := rfl
@[simp] theorem State.setLanes_mem (ls : List Lane) : (s.setLanes ls).mem = s.mem := rfl
@[simp] theorem State.setLanes_matched (ls : List Lane) : (s.setLanes ls).matched = s.matched := rfl
@[simp] theorem State.setLanes_record (ls : List Lane) : (s.setLanes ls).record = s.record := rfl
@[simp] theorem State.setLanes_ci (ls : List Lane) : (s.setLanes ls).ci = s.ci := rfl
@[simp] theorem State.setLanes_resp (ls : List Lane) : (s.setLanes ls).resp = s.resp := rfl
@[simp] theorem State.setLanes_port (ls : List Lane) : (s.setLanes ls).port = s.port := rfl
@[simp] theorem State.setLanes_host (ls : List Lane) : (s.setLanes ls).host = s.host := rfl
@[simp] theorem State.setLanes_delivered (ls : List Lane) : (s.setLanes ls).delivered = s.delivered := rfl

@[simp] theorem State.setTag_cfg (i : Nat) (t : Word) : (s.setTag i t).cfg = s.cfg := rfl
@[simp] theorem State.setTag_lanes (i : Nat) (t : Word) : (s.setTag i t).lanes = s.lanes := rfl
@[simp] theorem State.setTag_tags (i : Nat) (t : Word) : (s.setTag i t).tags = s.tags.set i (some t) := rfl
@[simp] theorem State.setTag_mem (i : Nat) (t : Word) : (s.setTag i t).mem = s.mem := rfl
@[simp] theorem State.setTag_matched (i : Nat) (t : Word) : (s.setTag i t).matched = s.matched := rfl
@[simp] theorem State.setTag_record (i : Nat) (t : Word) : (s.setTag i t).record = s.record := rfl
@[simp] theorem State.setTag_ci (i : Nat) (t : Word) : (s.setTag i t).ci = s.ci := rfl
@[simp] theorem State.setTag_resp (i : Nat) (t : Word) : (s.setTag i t).resp = s.resp := rfl
@[simp] theorem State.setTag_port (i : Nat) (t : Word) : (s.setTag i t).port = s.port := rfl
@[simp] theorem State.setTag_host (i : Nat) (t : Word) : (s.setTag i t).host = s.host := rfl
@[simp] theorem State.setTag_delivered (i : Nat) (t : Word) : (s.setTag i t).delivered = s.delivered := rfl

@[simp] theorem State.setTags_cfg (ts : List Word) : (s.setTags ts).cfg = s.cfg := rfl
@[simp] theorem State.setTags_lanes (ts : List Word) : (s.setTags ts).lanes = s.lanes := rfl
@[simp] theorem State.setTags_tags (ts : List Word) : (s.setTags ts).tags = ts.map some := rfl
@[simp] theorem State.setTags_mem (ts : List Word) : (s.setTags ts).mem = s.mem := rfl
@[simp] theorem State.setTags_matched (ts : List Word) : (s.setTags ts).matched = s.matched := rfl
@[simp] theorem State.setTags_record (ts : List Word) : (s.setTags ts).record = s.record := rfl
@[simp] theorem State.setTags_ci (ts : List Word) : (s.setTags ts).ci = s.ci := rfl
@[simp] theorem State.setTags_resp (ts : List Word) : (s.setTags ts).resp = s.resp := rfl
@[simp] theorem State.setTags_port (ts : List Word) : (s.setTags ts).port = s.port := rfl
@[simp] theorem State.setTags_host (ts : List Word) : (s.setTags ts).host = s.host := rfl
@[simp] theorem State.setTags_delivered (ts : List Word) : (s.setTags ts).delivered = s.delivered := rfl

@[simp] theorem State.setKeys_cfg (ks : List Host.Cell) : (s.setKeys ks).cfg = s.cfg := rfl
@[simp] theorem State.setKeys_lanes (ks : List Host.Cell) : (s.setKeys ks).lanes = s.lanes := rfl
@[simp] theorem State.setKeys_tags (ks : List Host.Cell) : (s.setKeys ks).tags = s.tags := rfl
@[simp] theorem State.setKeys_mem (ks : List Host.Cell) : (s.setKeys ks).mem = { s.mem with keys := ks } := rfl
@[simp] theorem State.setKeys_matched (ks : List Host.Cell) : (s.setKeys ks).matched = s.matched := rfl
@[simp] theorem State.setKeys_record (ks : List Host.Cell) : (s.setKeys ks).record = s.record := rfl
@[simp] theorem State.setKeys_ci (ks : List Host.Cell) : (s.setKeys ks).ci = s.ci := rfl
@[simp] theorem State.setKeys_resp (ks : List Host.Cell) : (s.setKeys ks).resp = s.resp := rfl
@[simp] theorem State.setKeys_port (ks : List Host.Cell) : (s.setKeys ks).port = s.port := rfl
@[simp] theorem State.setKeys_host (ks : List Host.Cell) : (s.setKeys ks).host = s.host := rfl
@[simp] theorem State.setKeys_delivered (ks : List Host.Cell) : (s.setKeys ks).delivered = s.delivered := rfl

@[simp] theorem State.setBits_cfg (bs : List Nat) : (s.setBits bs).cfg = s.cfg := rfl
@[simp] theorem State.setBits_lanes (bs : List Nat) : (s.setBits bs).lanes = s.lanes := rfl
@[simp] theorem State.setBits_tags (bs : List Nat) : (s.setBits bs).tags = s.tags := rfl
@[simp] theorem State.setBits_mem (bs : List Nat) : (s.setBits bs).mem = { s.mem with bits := bs } := rfl
@[simp] theorem State.setBits_matched (bs : List Nat) : (s.setBits bs).matched = s.matched := rfl
@[simp] theorem State.setBits_record (bs : List Nat) : (s.setBits bs).record = s.record := rfl
@[simp] theorem State.setBits_ci (bs : List Nat) : (s.setBits bs).ci = s.ci := rfl
@[simp] theorem State.setBits_resp (bs : List Nat) : (s.setBits bs).resp = s.resp := rfl
@[simp] theorem State.setBits_port (bs : List Nat) : (s.setBits bs).port = s.port := rfl
@[simp] theorem State.setBits_host (bs : List Nat) : (s.setBits bs).host = s.host := rfl
@[simp] theorem State.setBits_delivered (bs : List Nat) : (s.setBits bs).delivered = s.delivered := rfl

@[simp] theorem State.setMatch_cfg (b : Bool) : (s.setMatch b).cfg = s.cfg := rfl
@[simp] theorem State.setMatch_lanes (b : Bool) : (s.setMatch b).lanes = s.lanes := rfl
@[simp] theorem State.setMatch_tags (b : Bool) : (s.setMatch b).tags = s.tags := rfl
@[simp] theorem State.setMatch_mem (b : Bool) : (s.setMatch b).mem = s.mem := rfl
@[simp] theorem State.setMatch_matched (b : Bool) : (s.setMatch b).matched = b := rfl
@[simp] theorem State.setMatch_record (b : Bool) : (s.setMatch b).record = s.record := rfl
@[simp] theorem State.setMatch_ci (b : Bool) : (s.setMatch b).ci = s.ci := rfl
@[simp] theorem State.setMatch_resp (b : Bool) : (s.setMatch b).resp = s.resp := rfl
@[simp] theorem State.setMatch_port (b : Bool) : (s.setMatch b).port = s.port := rfl
@[simp] theorem State.setMatch_host (b : Bool) : (s.setMatch b).host = s.host := rfl
@[simp] theorem State.setMatch_delivered (b : Bool) : (s.setMatch b).delivered = s.delivered := rfl

@[simp] theorem State.push_cfg (w : Word) : (s.push w).cfg = s.cfg := rfl
@[simp] theorem State.push_lanes (w : Word) : (s.push w).lanes = s.lanes := rfl
@[simp] theorem State.push_tags (w : Word) : (s.push w).tags = s.tags := rfl
@[simp] theorem State.push_mem (w : Word) : (s.push w).mem = s.mem := rfl
@[simp] theorem State.push_matched (w : Word) : (s.push w).matched = s.matched := rfl
@[simp] theorem State.push_record (w : Word) : (s.push w).record = s.record := rfl
@[simp] theorem State.push_ci (w : Word) : (s.push w).ci = s.ci := rfl
@[simp] theorem State.push_resp (w : Word) : (s.push w).resp = s.resp ++ [w] := rfl
@[simp] theorem State.push_port (w : Word) : (s.push w).port = s.port := rfl
@[simp] theorem State.push_host (w : Word) : (s.push w).host = s.host := rfl
@[simp] theorem State.push_delivered (w : Word) : (s.push w).delivered = s.delivered := rfl

@[simp] theorem State.advance_cfg : s.advance.cfg = s.cfg := rfl
@[simp] theorem State.advance_lanes : s.advance.lanes = s.lanes := rfl
@[simp] theorem State.advance_tags : s.advance.tags = s.tags := rfl
@[simp] theorem State.advance_mem : s.advance.mem = s.mem := rfl
@[simp] theorem State.advance_matched : s.advance.matched = s.matched := rfl
@[simp] theorem State.advance_record : s.advance.record = s.record := rfl
@[simp] theorem State.advance_ci : s.advance.ci = s.ci + 1 := rfl
@[simp] theorem State.advance_resp : s.advance.resp = s.resp := rfl
@[simp] theorem State.advance_port : s.advance.port = s.port := rfl
@[simp] theorem State.advance_host : s.advance.host = s.host := rfl
@[simp] theorem State.advance_delivered : s.advance.delivered = s.delivered := rfl

@[simp] theorem State.takeFault_cfg (c : Cause) (lane op : Byte) : (s.takeFault c lane op).cfg = s.cfg := rfl
@[simp] theorem State.takeFault_lanes (c : Cause) (lane op : Byte) : (s.takeFault c lane op).lanes = s.lanes := rfl
@[simp] theorem State.takeFault_tags (c : Cause) (lane op : Byte) : (s.takeFault c lane op).tags = s.tags := rfl
@[simp] theorem State.takeFault_mem (c : Cause) (lane op : Byte) : (s.takeFault c lane op).mem = s.mem := rfl
@[simp] theorem State.takeFault_matched (c : Cause) (lane op : Byte) : (s.takeFault c lane op).matched = s.matched := rfl
@[simp] theorem State.takeFault_record (c : Cause) (lane op : Byte) : (s.takeFault c lane op).record = ⟨true, c.code, lane, op, s.ci⟩ := rfl
@[simp] theorem State.takeFault_ci (c : Cause) (lane op : Byte) : (s.takeFault c lane op).ci = s.ci := rfl
@[simp] theorem State.takeFault_resp (c : Cause) (lane op : Byte) : (s.takeFault c lane op).resp = s.resp := rfl
@[simp] theorem State.takeFault_port (c : Cause) (lane op : Byte) : (s.takeFault c lane op).port = s.port := rfl
@[simp] theorem State.takeFault_host (c : Cause) (lane op : Byte) : (s.takeFault c lane op).host = s.host := rfl
@[simp] theorem State.takeFault_delivered (c : Cause) (lane op : Byte) : (s.takeFault c lane op).delivered = s.delivered := rfl

@[simp] theorem State.takeFaultAt_cfg (c : Cause) (i : Nat) (op : Byte) : (s.takeFaultAt c i op).cfg = s.cfg := rfl
@[simp] theorem State.takeFaultAt_lanes (c : Cause) (i : Nat) (op : Byte) : (s.takeFaultAt c i op).lanes = s.lanes := rfl
@[simp] theorem State.takeFaultAt_tags (c : Cause) (i : Nat) (op : Byte) : (s.takeFaultAt c i op).tags = s.tags := rfl
@[simp] theorem State.takeFaultAt_mem (c : Cause) (i : Nat) (op : Byte) : (s.takeFaultAt c i op).mem = s.mem := rfl
@[simp] theorem State.takeFaultAt_matched (c : Cause) (i : Nat) (op : Byte) : (s.takeFaultAt c i op).matched = s.matched := rfl
@[simp] theorem State.takeFaultAt_record (c : Cause) (i : Nat) (op : Byte) : (s.takeFaultAt c i op).record = ⟨true, c.code, BitVec.ofNat 8 i, op, s.ci⟩ := rfl
@[simp] theorem State.takeFaultAt_ci (c : Cause) (i : Nat) (op : Byte) : (s.takeFaultAt c i op).ci = s.ci := rfl
@[simp] theorem State.takeFaultAt_resp (c : Cause) (i : Nat) (op : Byte) : (s.takeFaultAt c i op).resp = s.resp := rfl
@[simp] theorem State.takeFaultAt_port (c : Cause) (i : Nat) (op : Byte) : (s.takeFaultAt c i op).port = s.port := rfl
@[simp] theorem State.takeFaultAt_host (c : Cause) (i : Nat) (op : Byte) : (s.takeFaultAt c i op).host = s.host := rfl
@[simp] theorem State.takeFaultAt_delivered (c : Cause) (i : Nat) (op : Byte) : (s.takeFaultAt c i op).delivered = s.delivered := rfl

@[simp] theorem State.issueByHost_cfg (w : CmdWord) : (s.issueByHost w).cfg = s.cfg := rfl
@[simp] theorem State.issueByHost_lanes (w : CmdWord) : (s.issueByHost w).lanes = s.lanes := rfl
@[simp] theorem State.issueByHost_tags (w : CmdWord) : (s.issueByHost w).tags = s.tags := rfl
@[simp] theorem State.issueByHost_mem (w : CmdWord) : (s.issueByHost w).mem = s.mem := rfl
@[simp] theorem State.issueByHost_matched (w : CmdWord) : (s.issueByHost w).matched = s.matched := rfl
@[simp] theorem State.issueByHost_record (w : CmdWord) : (s.issueByHost w).record = s.record := rfl
@[simp] theorem State.issueByHost_ci (w : CmdWord) : (s.issueByHost w).ci = s.ci := rfl
@[simp] theorem State.issueByHost_resp (w : CmdWord) : (s.issueByHost w).resp = s.resp := rfl
@[simp] theorem State.issueByHost_port (w : CmdWord) : (s.issueByHost w).port = s.port ++ [w] := rfl
@[simp] theorem State.issueByHost_host (w : CmdWord) : (s.issueByHost w).host = s.host := rfl
@[simp] theorem State.issueByHost_delivered (w : CmdWord) : (s.issueByHost w).delivered = s.delivered := rfl

@[simp] theorem State.finalizeAll_cfg (rs : List LaneRegs) : (s.finalizeAll rs).cfg = s.cfg := rfl
@[simp] theorem State.finalizeAll_lanes (rs : List LaneRegs) : (s.finalizeAll rs).lanes = (rs.map (finalize s.cfg.c s.cfg.d)).map Lane.done := rfl
@[simp] theorem State.finalizeAll_tags (rs : List LaneRegs) : (s.finalizeAll rs).tags = ((rs.map (finalize s.cfg.c s.cfg.d)).map tagOf).map some := rfl
@[simp] theorem State.finalizeAll_mem (rs : List LaneRegs) : (s.finalizeAll rs).mem = s.mem := rfl
@[simp] theorem State.finalizeAll_matched (rs : List LaneRegs) : (s.finalizeAll rs).matched = s.matched := rfl
@[simp] theorem State.finalizeAll_record (rs : List LaneRegs) : (s.finalizeAll rs).record = s.record := rfl
@[simp] theorem State.finalizeAll_ci (rs : List LaneRegs) : (s.finalizeAll rs).ci = s.ci := rfl
@[simp] theorem State.finalizeAll_resp (rs : List LaneRegs) : (s.finalizeAll rs).resp = s.resp := rfl
@[simp] theorem State.finalizeAll_port (rs : List LaneRegs) : (s.finalizeAll rs).port = s.port := rfl
@[simp] theorem State.finalizeAll_host (rs : List LaneRegs) : (s.finalizeAll rs).host = s.host := rfl
@[simp] theorem State.finalizeAll_delivered (rs : List LaneRegs) : (s.finalizeAll rs).delivered = s.delivered := rfl

end Sys2Proof.Machine
end

