-- ==== Sys2Proof/Laws/Memory.lean ====
section
/-! SUPPORT. The two memories: read after write, and that every memory operation keeps the canonical form
(`Memory.wf`). -/

namespace Sys2Proof.Machine

open Sys2Proof

/-! ### The rising order -/

theorem rising_iff_pairwise : ∀ xs : List Nat, rising xs = true ↔ xs.Pairwise (· < ·)
  | [] => by simp [rising]
  | [_] => by simp [rising]
  | x :: y :: zs => by
    rw [rising, Bool.and_eq_true, decide_eq_true_iff, rising_iff_pairwise (y :: zs), List.pairwise_cons (a := x)]
    refine ⟨fun ⟨hxy, hp⟩ => ⟨fun z hz => ?_, hp⟩, fun ⟨h, hp⟩ => ⟨h y (by simp), hp⟩⟩
    rcases List.mem_cons.mp hz with rfl | hz
    · exact hxy
    · exact lt_trans hxy (List.rel_of_pairwise_cons hp hz)

theorem Memory.wf_iff (m : Memory) :
    m.wf = true ↔ (m.keys.map Prod.fst).Pairwise (· < ·) ∧ m.bits.Pairwise (· < ·) := by
  simp [Memory.wf, rising_iff_pairwise]

/-! ### KEYS -/

theorem readKey_writeKey_same (a : Nat) (b : Byte) : ∀ ks, readKey a (writeKey a b ks) = some b
  | [] => by simp [writeKey, readKey]
  | (x, y) :: rest => by
    simp only [writeKey]
    split
    · simp [readKey]
    · split
      · simp [readKey]
      · simp [readKey, Ne.symm ‹¬ a = x›, readKey_writeKey_same a b rest]

theorem readKey_writeKey_ne {a a' : Nat} (b : Byte) (h : a' ≠ a) : ∀ ks, readKey a' (writeKey a b ks) = readKey a' ks
  | [] => by simp [writeKey, readKey, Ne.symm h]
  | (x, y) :: rest => by
    simp only [writeKey]
    split
    · simp [readKey, Ne.symm h]
    · split
      · subst_vars; simp [readKey, Ne.symm h]
      · simp [readKey, readKey_writeKey_ne b h rest]

theorem mem_writeKey {a : Nat} {b : Byte} {cell : Host.Cell} :
    ∀ {ks}, cell ∈ writeKey a b ks → cell = (a, b) ∨ cell ∈ ks
  | [], h => by simpa [writeKey] using h
  | (x, y) :: rest, h => by
    simp only [writeKey] at h
    split at h
    · simpa using h
    · split at h
      · rcases List.mem_cons.mp h with h | h <;> simp [h]
      · rcases List.mem_cons.mp h with h | h
        · simp [h]
        · rcases mem_writeKey h with h | h <;> simp [h]

theorem pairwise_writeKey (a : Nat) (b : Byte) :
    ∀ ks : List Host.Cell, (ks.map Prod.fst).Pairwise (· < ·) → ((writeKey a b ks).map Prod.fst).Pairwise (· < ·)
  | [], _ => by simp [writeKey]
  | (x, y) :: rest, h => by
    simp only [List.map_cons, List.pairwise_cons] at h
    simp only [writeKey]
    split
    · simp only [List.map_cons, List.pairwise_cons]
      refine ⟨fun z hz => ?_, h⟩
      rcases List.mem_cons.mp hz with rfl | hz
      · assumption
      · exact lt_trans ‹_› (h.1 z hz)
    · split
      · subst_vars; simpa using h
      · simp only [List.map_cons, List.pairwise_cons]
        refine ⟨fun z hz => ?_, pairwise_writeKey a b rest h.2⟩
        obtain ⟨cell, hc, rfl⟩ := List.mem_map.mp hz
        rcases mem_writeKey hc with rfl | hc
        · simp only; omega
        · exact h.1 _ (List.mem_map_of_mem hc)

theorem readKey_memWrite_outside :
    ∀ (bytes : List Byte) {a x : Nat} (ks), (x < a ∨ a + bytes.length ≤ x) → readKey x (memWrite ks a bytes) = readKey x ks
  | [], _, _, _, _ => rfl
  | b :: bs, a, x, ks, h => by
    simp only [List.length_cons] at h
    rw [memWrite, readKey_memWrite_outside bs _ (by omega), readKey_writeKey_ne b (by omega)]

theorem readKey_memWrite_inside :
    ∀ (bytes : List Byte) {a j : Nat} (ks), j < bytes.length → readKey (a + j) (memWrite ks a bytes) = bytes[j]?
  | b :: bs, a, 0, ks, _ => by
    simp [memWrite, readKey_memWrite_outside bs (a := a + 1) (x := a) _ (by omega), readKey_writeKey_same]
  | b :: bs, a, j + 1, ks, h => by
    rw [memWrite, show a + (j + 1) = a + 1 + j by omega, readKey_memWrite_inside bs _ (by simpa using h)]
    simp

theorem mem_memWrite : ∀ (bytes : List Byte) {a : Nat} {ks : List Host.Cell} {cell : Host.Cell},
    cell ∈ memWrite ks a bytes → (a ≤ cell.1 ∧ cell.1 < a + bytes.length) ∨ cell ∈ ks
  | [], _, _, _, h => .inr h
  | b :: bs, a, ks, cell, h => by
    simp only [List.length_cons]
    rcases mem_memWrite bs h with h | h
    · exact .inl (by omega)
    · rcases mem_writeKey h with rfl | h
      · exact .inl ⟨le_rfl, by simp only; omega⟩
      · exact .inr h

theorem pairwise_memWrite : ∀ (bytes : List Byte) (a : Nat) (ks : List Host.Cell),
    (ks.map Prod.fst).Pairwise (· < ·) → ((memWrite ks a bytes).map Prod.fst).Pairwise (· < ·)
  | [], _, _, h => h
  | b :: bs, a, ks, h => pairwise_memWrite bs (a + 1) _ (pairwise_writeKey a b ks h)

/-- `MemRead` answers the bytes exactly when every address holds one. -/
theorem memRead_eq_some : ∀ (n : Nat) {ks a bs},
    memRead ks a n = some bs ↔ bs.length = n ∧ ∀ j < n, readKey (a + j) ks = bs[j]?
  | 0, ks, a, bs => by
    cases bs <;> simp [memRead]
  | n + 1, ks, a, bs => by
    simp only [memRead]
    cases hk : readKey a ks with
    | none =>
      simp only [Option.bind_none, reduceCtorEq, false_iff, not_and]
      intro hl h
      have := h 0 (by omega)
      cases bs <;> simp_all
    | some b =>
      simp only [Option.bind_some, Option.map_eq_some_iff]
      constructor
      · rintro ⟨rest, hr, rfl⟩
        obtain ⟨hl, h⟩ := (memRead_eq_some n).mp hr
        refine ⟨by simp [hl], fun j hj => ?_⟩
        cases j with
        | zero => simpa using hk
        | succ j => simpa [show a + (j + 1) = a + 1 + j by omega] using h j (by omega)
      · rintro ⟨hl, h⟩
        cases bs with
        | nil => simp at hl
        | cons x rest =>
          have hx : x = b := by simpa [hk] using (h 0 (by omega)).symm
          subst hx
          refine ⟨rest, (memRead_eq_some n).mpr ⟨by simpa using hl, fun j hj => ?_⟩, rfl⟩
          simpa [show a + 1 + j = a + (j + 1) by omega] using h (j + 1) (by omega)

theorem memRead_isSome : ∀ (n : Nat) {ks a},
    (memRead ks a n).isSome = true ↔ ∀ j < n, (readKey (a + j) ks).isSome = true
  | 0, _, _ => by simp [memRead]
  | n + 1, ks, a => by
    simp only [memRead]
    cases hk : readKey a ks with
    | none => simpa using ⟨0, by omega, hk⟩
    | some b =>
      simp only [Option.bind_some, Option.isSome_map, memRead_isSome n]
      refine ⟨fun h j hj => ?_, fun h j hj => ?_⟩
      · cases j with
        | zero => simp [hk]
        | succ j => simpa [show a + (j + 1) = a + 1 + j by omega] using h j (by omega)
      · simpa [show a + 1 + j = a + (j + 1) by omega] using h (j + 1) (by omega)

/-! ### BITS -/

theorem bitRead_iff_mem {bits : List Nat} {x : Nat} : bitRead bits x = true ↔ x ∈ bits := by simp [bitRead]

@[simp] theorem bitRead_nil (x : Nat) : bitRead [] x = false := rfl

theorem mem_insertBit {x y : Nat} : ∀ {bits : List Nat}, y ∈ insertBit x bits ↔ y = x ∨ y ∈ bits
  | [] => by simp [insertBit]
  | z :: zs => by
    simp only [insertBit]
    split
    · simp
    · split
      · subst_vars; simp
      · simp only [List.mem_cons, mem_insertBit (bits := zs)]
        exact ⟨by rintro (h | h | h) <;> simp [h], by rintro (h | h | h) <;> simp [h]⟩

theorem pairwise_insertBit (x : Nat) : ∀ bits : List Nat, bits.Pairwise (· < ·) → (insertBit x bits).Pairwise (· < ·)
  | [], _ => by simp [insertBit]
  | z :: zs, h => by
    have hc := List.pairwise_cons.mp h
    simp only [insertBit]
    split
    · refine List.pairwise_cons.mpr ⟨fun w hw => ?_, h⟩
      rcases List.mem_cons.mp hw with rfl | hw
      · assumption
      · exact lt_trans ‹_› (hc.1 w hw)
    · split
      · exact h
      · refine List.pairwise_cons.mpr ⟨fun w hw => ?_, pairwise_insertBit x zs hc.2⟩
        rcases mem_insertBit.mp hw with rfl | hw
        · omega
        · exact hc.1 w hw

/-- In canonical form, setting a bit that is set changes nothing. -/
theorem insertBit_of_mem {x : Nat} : ∀ {bits : List Nat}, bits.Pairwise (· < ·) → x ∈ bits → insertBit x bits = bits
  | z :: zs, h, hm => by
    have hc := List.pairwise_cons.mp h
    simp only [insertBit]
    rcases List.mem_cons.mp hm with rfl | hm
    · simp
    · have := hc.1 x hm
      rw [if_neg (by omega), if_neg (by omega), insertBit_of_mem hc.2 hm]

/-- Read after write on the bit array. -/
theorem bitRead_bitWrite (x y : Nat) (v : Bool) (bits : List Nat) :
    bitRead (bitWrite x v bits) y = if y = x then v else bitRead bits y := by
  cases v with
  | true =>
    by_cases h : y = x
    · simp [bitWrite, bitRead, mem_insertBit, h]
    · rw [if_neg h, Bool.eq_iff_iff]
      simp [bitWrite, bitRead_iff_mem, mem_insertBit, h]
  | false =>
    rw [Bool.eq_iff_iff, bitRead_iff_mem]
    by_cases h : y = x <;> simp [bitWrite, h, bitRead_iff_mem]

theorem pairwise_bitWrite (x : Nat) (v : Bool) (bits : List Nat) (h : bits.Pairwise (· < ·)) :
    (bitWrite x v bits).Pairwise (· < ·) := by
  cases v
  · exact h.filter _
  · exact pairwise_insertBit x bits h

theorem mem_setBitsAt {y : Nat} : ∀ {xs bits : List Nat}, y ∈ setBitsAt xs bits ↔ y ∈ xs ∨ y ∈ bits
  | [], bits => by simp [setBitsAt]
  | x :: xs, bits => by
    have ih := mem_setBitsAt (y := y) (xs := xs) (bits := insertBit x bits)
    simp only [setBitsAt, List.foldl_cons, bitWrite, if_true] at ih ⊢
    rw [ih, mem_insertBit, List.mem_cons]
    exact ⟨by rintro (h | h | h) <;> simp [h], by rintro ((h | h) | h) <;> simp [h]⟩

theorem pairwise_setBitsAt : ∀ (xs bits : List Nat), bits.Pairwise (· < ·) → (setBitsAt xs bits).Pairwise (· < ·)
  | [], _, h => h
  | x :: xs, bits, h => pairwise_setBitsAt xs _ (pairwise_insertBit x bits h)

/-! ### The canonical form is kept -/

theorem Memory.wf_memWrite {m : Memory} (h : m.wf = true) (a : Nat) (bytes : List Byte) :
    Memory.wf { m with keys := memWrite m.keys a bytes } = true := by
  rw [Memory.wf_iff] at h ⊢
  exact ⟨pairwise_memWrite bytes a m.keys h.1, h.2⟩

theorem Memory.wf_setBitsAt {m : Memory} (h : m.wf = true) (xs : List Nat) :
    Memory.wf { m with bits := setBitsAt xs m.bits } = true := by
  rw [Memory.wf_iff] at h ⊢
  exact ⟨h.1, pairwise_setBitsAt xs m.bits h.2⟩

theorem Memory.wf_bitWrite {m : Memory} (h : m.wf = true) (x : Nat) (v : Bool) :
    Memory.wf { m with bits := bitWrite x v m.bits } = true := by
  rw [Memory.wf_iff] at h ⊢
  exact ⟨h.1, pairwise_bitWrite x v m.bits h.2⟩

theorem Memory.wf_clear {m : Memory} (h : m.wf = true) : Memory.wf { m with bits := [] } = true := by
  rw [Memory.wf_iff] at h ⊢
  exact ⟨h.1, by simp⟩

theorem reset_mem_wf (cfg : Config) : (State.resetWith cfg).mem.wf = true := rfl

end Sys2Proof.Machine
end

