-- ==== Sys2Proof/Laws/Mixer.lean ====
section
/-! SUPPORT. The byte helpers as numbers, and absorption over a list of bytes. -/

namespace Sys2Proof.Machine

open Sys2Proof

theorem byteOf_toNat (data : Word) (j : Nat) : (byteOf data j).toNat = data.toNat / 2 ^ (8 * j) % 256 := by
  simp [byteOf, BitVec.extractLsb'_toNat, Nat.shiftRight_eq_div_pow]

theorem le32_toNat (b0 b1 b2 b3 : Byte) :
    (le32 b0 b1 b2 b3).toNat = b0.toNat + 2 ^ 8 * b1.toNat + 2 ^ 16 * b2.toNat + 2 ^ 24 * b3.toNat := by
  have := b0.isLt
  have := b1.isLt
  have := b2.isLt
  simp only [le32, BitVec.toNat_append]
  rw [← Nat.shiftLeft_add_eq_or_of_lt, ← Nat.shiftLeft_add_eq_or_of_lt, ← Nat.shiftLeft_add_eq_or_of_lt]
  all_goals try simp only [Nat.shiftLeft_eq]
  all_goals omega

@[simp] theorem length_chunk (n : BitVec 3) (data : Word) : (chunk n data).length = n.toNat := by simp [chunk]

@[simp] theorem absorbAll_nil (c : Nat) (r : LaneRegs) : absorbAll c r [] = r := rfl

@[simp] theorem absorbAll_cons (c : Nat) (r : LaneRegs) (b : Byte) (bs : List Byte) :
    absorbAll c r (b :: bs) = absorbAll c (absorb c r b) bs := rfl

/-- Absorbing is a fold, so it composes over concatenation (R97). -/
theorem absorbAll_append (c : Nat) (r : LaneRegs) (xs ys : List Byte) :
    absorbAll c r (xs ++ ys) = absorbAll c (absorbAll c r xs) ys := by simp [absorbAll, List.foldl_append]

@[simp] theorem absorb_bc (c : Nat) (r : LaneRegs) (b : Byte) : (absorb c r b).bc = r.bc + 1 := by
  simp only [absorb]; split <;> rfl

theorem absorbAll_bc (c : Nat) : ∀ (bs : List Byte) (r : LaneRegs),
    (absorbAll c r bs).bc.toNat = (r.bc.toNat + bs.length) % 256
  | [], r => by have := r.bc.isLt; simp; omega
  | b :: bs, r => by
    rw [absorbAll_cons, absorbAll_bc c bs, absorb_bc, BitVec.toNat_add, List.length_cons]
    simp only [BitVec.ofNat_eq_ofNat, BitVec.toNat_ofNat]
    omega

theorem Pending.length_bytes (p : Pending) : p.bytes.length = p.level.toNat := by cases p <;> rfl

/-- A byte that does not complete a block is only stored (R93). -/
theorem absorb_store {c : Nat} {r : LaneRegs} {b : Byte} (h : r.pending.bytes.length < 3) :
    (absorb c r b).v = r.v ∧ (absorb c r b).pending.bytes = r.pending.bytes ++ [b] := by
  obtain ⟨v, p, bc⟩ := r
  cases p <;> simp_all [absorb, Pending.bytes]

/-- The fourth byte of a block compresses it and empties the buffer (R93). -/
theorem absorb_block {c : Nat} {v : Mix} {b0 b1 b2 b : Byte} {bc : Byte} :
    absorb c ⟨v, .three b0 b1 b2, bc⟩ b = ⟨compress c (le32 b0 b1 b2 b) v, .zero, bc + 1⟩ := rfl

@[simp] theorem finalize_pending (c d : Nat) (r : LaneRegs) : (finalize c d r).pending = r.pending := rfl
@[simp] theorem finalize_bc (c d : Nat) (r : LaneRegs) : (finalize c d r).bc = r.bc := rfl

end Sys2Proof.Machine
end

