-- ==== Sys2Proof/Laws/Ops.lean ====
section
/-! SUPPORT. What each shared operation can do, said once: the lowest-index check, the lane, tag and key reads, and
the outcome of a command. -/

namespace Sys2Proof.Machine

open Sys2Proof

/-! ### The lowest-index check -/

theorem collectFrom_ok {α : Type} {f : Nat → Option α} :
    ∀ {n i : Nat} {xs : List α},
      collectFrom f i n = .ok xs ↔ xs.length = n ∧ ∀ j < n, f (i + j) = xs[j]?
  | 0, i, xs => by cases xs <;> simp [collectFrom]
  | n + 1, i, xs => by
    simp only [collectFrom]
    cases hf : f i with
    | none =>
      simp only [reduceCtorEq, false_iff, not_and]
      intro hl h
      have := h 0 (by omega)
      cases xs <;> simp_all
    | some x =>
      cases hr : collectFrom f (i + 1) n with
      | error j =>
        simp only [reduceCtorEq, false_iff, not_and]
        intro hl h
        have : collectFrom f (i + 1) n = .ok xs.tail := by
          refine collectFrom_ok.mpr ⟨by simp [hl], fun j hj => ?_⟩
          have := h (j + 1) (by omega)
          rw [show i + 1 + j = i + (j + 1) by omega, this, List.getElem?_tail]
        simp [hr] at this
      | ok ys =>
        obtain ⟨hl, h⟩ := collectFrom_ok.mp hr
        constructor
        · rintro ⟨⟩
          refine ⟨by simp [hl], fun j hj => ?_⟩
          cases j with
          | zero => simpa using hf
          | succ j => simpa [show i + (j + 1) = i + 1 + j by omega] using h j (by omega)
        · rintro ⟨hl', h'⟩
          refine congrArg Except.ok (List.ext_getElem? fun j => ?_)
          by_cases hj : j < n + 1
          · rw [← h' j hj]
            cases j with
            | zero => simpa using hf.symm
            | succ j => simpa [show i + (j + 1) = i + 1 + j by omega] using (h j (by omega)).symm
          · rw [List.getElem?_eq_none (by simp [hl]; omega), List.getElem?_eq_none (by omega)]

theorem collectFrom_error {α : Type} {f : Nat → Option α} :
    ∀ {n i e : Nat}, collectFrom f i n = .error e ↔
      i ≤ e ∧ e < i + n ∧ f e = none ∧ ∀ j, i ≤ j → j < e → (f j).isSome = true
  | 0, i, e => by simp [collectFrom]; omega
  | n + 1, i, e => by
    simp only [collectFrom]
    cases hf : f i with
    | none =>
      simp only [Except.error.injEq]
      constructor
      · rintro rfl
        exact ⟨le_rfl, by omega, hf, fun j _ _ => by omega⟩
      · rintro ⟨h1, -, -, h4⟩
        by_contra hne
        have := h4 i le_rfl (by omega)
        simp [hf] at this
    | some x =>
      have ih := collectFrom_error (f := f) (n := n) (i := i + 1) (e := e)
      have key : collectFrom f (i + 1) n = .error e ↔
          i ≤ e ∧ e < i + (n + 1) ∧ f e = none ∧ ∀ j, i ≤ j → j < e → (f j).isSome = true := by
        rw [ih]
        constructor
        · rintro ⟨h1, h2, h3, h4⟩
          refine ⟨by omega, by omega, h3, fun j hj hje => ?_⟩
          rcases Nat.eq_or_lt_of_le hj with rfl | hj
          · simp [hf]
          · exact h4 j hj hje
        · rintro ⟨h1, h2, h3, h4⟩
          rcases Nat.eq_or_lt_of_le h1 with rfl | h1
          · simp [hf] at h3
          · exact ⟨h1, by omega, h3, fun j hj hje => h4 j (by omega) hje⟩
      cases hr : collectFrom f (i + 1) n with
      | error j => simpa [hr] using key
      | ok ys => simpa [hr] using key

/-- The check passes with `xs` exactly when `f` has the values `xs` at `0..n-1`. -/
theorem collect_ok {α : Type} {f : Nat → Option α} {n : Nat} {xs : List α} :
    collect f n = .ok xs ↔ xs.length = n ∧ ∀ j < n, f j = xs[j]? := by
  simp [collect, collectFrom_ok]

/-- The check fails at `e` exactly when `e` is the lowest index without a value. -/
theorem collect_error {α : Type} {f : Nat → Option α} {n e : Nat} :
    collect f n = .error e ↔ e < n ∧ f e = none ∧ ∀ j < e, (f j).isSome = true := by
  simp [collect, collectFrom_error]

/-- The check passes when there is a value at every index. -/
theorem collect_ok_of_forall {α : Type} {f : Nat → Option α} {n : Nat} {g : Nat → α}
    (h : ∀ i < n, f i = some (g i)) : collect f n = .ok ((List.range n).map g) := by
  refine collect_ok.mpr ⟨by simp, fun j hj => ?_⟩
  simp [h j hj, hj]

/-! ### Reads -/

theorem activeLane_eq_some {s : State} {i : Nat} {r : LaneRegs} :
    s.activeLane i = some r ↔ s.lanes[i]? = some (.active r) := by
  simp only [State.activeLane]
  split <;> simp_all

theorem activeLane_eq_none {s : State} {i : Nat} :
    s.activeLane i = none ↔ ∀ r, s.lanes[i]? ≠ some (.active r) := by
  rw [← Option.not_isSome_iff_eq_none, Option.isSome_iff_exists]
  simp [activeLane_eq_some]

theorem tagAt_eq_some {s : State} {i : Nat} {t : Word} : s.tagAt i = some t ↔ s.tags[i]? = some (some t) := by
  simp [State.tagAt, Option.join_eq_some_iff]

theorem tagAt_eq_none {s : State} {i : Nat} : s.tagAt i = none ↔ ∀ t, s.tags[i]? ≠ some (some t) := by
  rw [← Option.not_isSome_iff_eq_none, Option.isSome_iff_exists]
  simp [tagAt_eq_some]

/-- `KVAL` is the presence of the half's four bytes. -/
theorem kval_iff {s : State} {slot : Nat} {h : Half} :
    s.kval slot h = true ↔ ∀ j < 4, (readKey (8 * slot + halfOffset h + j) s.mem.keys).isSome = true :=
  memRead_isSome 4

theorem slotWords_eq_some {s : State} {slot : Nat} {k0 k1 : Word} :
    s.slotWords slot = some (k0, k1) ↔
      ∃ b : Nat → Byte, (∀ j < 8, readKey (8 * slot + j) s.mem.keys = some (b j))
        ∧ k0 = le32 (b 0) (b 1) (b 2) (b 3) ∧ k1 = le32 (b 4) (b 5) (b 6) (b 7) := by
  constructor
  · intro h
    simp only [State.slotWords] at h
    split at h
    · rename_i b0 b1 b2 b3 b4 b5 b6 b7 hm
      obtain ⟨-, hb⟩ := (memRead_eq_some 8).mp hm
      refine ⟨fun j => [b0, b1, b2, b3, b4, b5, b6, b7].getD j 0, fun j hj => ?_, ?_⟩
      · rw [hb j hj]
        interval_cases j <;> rfl
      · simpa [eq_comm] using h
    · simp at h
  · rintro ⟨b, hb, rfl, rfl⟩
    have : memRead s.mem.keys (8 * slot) 8 = some [b 0, b 1, b 2, b 3, b 4, b 5, b 6, b 7] := by
      refine (memRead_eq_some 8).mpr ⟨rfl, fun j hj => ?_⟩
      rw [hb j hj]
      interval_cases j <;> rfl
    simp [State.slotWords, this]

/-- A slot has its key words exactly when both halves are valid (10_state.md R28). -/
theorem slotWords_isSome {s : State} {slot : Nat} :
    (s.slotWords slot).isSome = true ↔ s.kval slot .first = true ∧ s.kval slot .second = true := by
  rw [kval_iff, kval_iff]
  constructor
  · intro h
    obtain ⟨⟨k0, k1⟩, hk⟩ := Option.isSome_iff_exists.mp h
    obtain ⟨b, hb, -⟩ := slotWords_eq_some.mp hk
    refine ⟨fun j hj => ?_, fun j hj => ?_⟩
    · simp [halfOffset, hb j (by omega)]
    · simp [halfOffset, Nat.add_assoc, hb (4 + j) (by omega)]
  · rintro ⟨h1, h2⟩
    have hall : ∀ j < 8, (readKey (8 * slot + j) s.mem.keys).isSome = true := fun j hj => by
      by_cases h4 : j < 4
      · simpa [halfOffset] using h1 j h4
      · have := h2 (j - 4) (by omega)
        rwa [show 8 * slot + halfOffset .second + (j - 4) = 8 * slot + j by simp [halfOffset]; omega] at this
    have : s.slotWords slot = some _ := slotWords_eq_some.mpr
      ⟨fun j => (readKey (8 * slot + j) s.mem.keys).getD 0, fun j hj => by
        obtain ⟨b, hb⟩ := Option.isSome_iff_exists.mp (hall j hj)
        simp [hb], rfl, rfl⟩
    simp [this]

theorem slotWords_eq_none {s : State} {slot : Nat} :
    s.slotWords slot = none ↔ s.kval slot .first = false ∨ s.kval slot .second = false := by
  rw [← Option.not_isSome_iff_eq_none, slotWords_isSome]
  cases s.kval slot .first <;> cases s.kval slot .second <;> simp

/-! ### The outcome of a command -/

/-- A command ends in one of two states: its effect, if its operands pass the checks, or the fault of the check. -/
theorem runCommand_cases {i : Instr} {s t u : State} (h : runCommand i s t = .next u) :
    (operandFault s.cfg.k i = none ∧ u = t)
      ∨ ∃ c lane, operandFault s.cfg.k i = some (c, lane) ∧ u = s.takeFault c lane i.op.code := by
  simp only [runCommand] at h
  split at h <;> simp_all

theorem runCommand_of_none {i : Instr} {s t : State} (h : operandFault s.cfg.k i = none) :
    runCommand i s t = .next t := by simp [runCommand, h]

theorem runCommand_of_some {i : Instr} {s t : State} {c : Cause} {lane : Byte}
    (h : operandFault s.cfg.k i = some (c, lane)) :
    runCommand i s t = .next (s.takeFault c lane i.op.code) := by simp [runCommand, h]

/-- The state each command's effect leaves, by command: what `exec` runs once the operand checks pass. -/
def effectOf : Instr → State → State
  | .nop, s => s
  | .status, s => (s.push (statusWord s)).push s.record.fidx
  | .hinit lane, s => hinitEffect lane s
  | .hdata lane n data, s => hdataEffect lane n data s
  | .hfinal lane, s => hfinalEffect lane s
  | .twr lane data, s => s.setTag lane.toNat data
  | .trd lane, s => trdEffect lane s
  | .badd, s => baddEffect s
  | .btest, s => btestEffect s
  | .bclear, s => s.setBits []
  | .kwr slot h data, s =>
    s.setKeys (memWrite s.mem.keys (8 * slot.toNat + halfOffset h) (keyBytes data))
  | .kinit, s => kinitEffect s
  | .kdata n data, s => kdataEffect n data s
  | .kadd, s => kaddEffect s
  | .ktest, s => ktestEffect s

/-- Every command is its operand checks, then its effect. -/
theorem exec_eq (i : Instr) (s : State) : exec i s = runCommand i s (effectOf i s) := by cases i <;> rfl

/-- What a command can do: its effect, or the fault of an operand check. -/
theorem exec_cases {i : Instr} {s t : State} (h : exec i s = .next t) :
    (operandFault s.cfg.k i = none ∧ t = effectOf i s)
      ∨ ∃ c lane, operandFault s.cfg.k i = some (c, lane) ∧ t = s.takeFault c lane i.op.code :=
  runCommand_cases (exec_eq i s ▸ h)

/-! ### The effect of each command: its state check, then its writes -/

theorem hinitEffect_cases (lane : Byte) (s : State) :
    (s.slotWords lane.toNat = none ∧ hinitEffect lane s = s.takeFault .keyUnwritten lane 0x10)
      ∨ ∃ k0 k1, s.slotWords lane.toNat = some (k0, k1)
          ∧ hinitEffect lane s = s.setLane lane.toNat (.active (initRegs k0 k1)) := by
  simp only [hinitEffect]
  split
  · exact .inl ⟨by assumption, rfl⟩
  · exact .inr ⟨_, _, by assumption, rfl⟩

theorem hdataEffect_cases (lane : Byte) (n : BitVec 3) (data : Word) (s : State) :
    (s.activeLane lane.toNat = none ∧ hdataEffect lane n data s = s.takeFault .laneNotActive lane 0x11)
      ∨ ∃ r, s.activeLane lane.toNat = some r ∧ hdataEffect lane n data s =
          s.setLane lane.toNat (.active (absorbAll s.cfg.c r (chunk n data))) := by
  simp only [hdataEffect]
  split
  · exact .inl ⟨by assumption, rfl⟩
  · exact .inr ⟨_, by assumption, rfl⟩

theorem hfinalEffect_cases (lane : Byte) (s : State) :
    (s.activeLane lane.toNat = none ∧ hfinalEffect lane s = s.takeFault .laneNotActive lane 0x12)
      ∨ ∃ r, s.activeLane lane.toNat = some r ∧ hfinalEffect lane s =
          ((s.setLane lane.toNat (.done (finalize s.cfg.c s.cfg.d r))).setTag lane.toNat
            (tagOf (finalize s.cfg.c s.cfg.d r))).push (tagOf (finalize s.cfg.c s.cfg.d r)) := by
  simp only [hfinalEffect]
  split
  · exact .inl ⟨by assumption, rfl⟩
  · exact .inr ⟨_, by assumption, rfl⟩

theorem trdEffect_cases (lane : Byte) (s : State) :
    (s.tagAt lane.toNat = none ∧ trdEffect lane s = s.takeFault .tagUnwritten lane 0x21)
      ∨ ∃ t, s.tagAt lane.toNat = some t ∧ trdEffect lane s = s.push t := by
  simp only [trdEffect]
  split
  · exact .inl ⟨by assumption, rfl⟩
  · exact .inr ⟨_, by assumption, rfl⟩

theorem baddEffect_cases (s : State) :
    (∃ i, collect s.tagAt s.cfg.k = .error i ∧ baddEffect s = s.takeFaultAt .tagUnwritten i 0x22)
      ∨ ∃ ts, collect s.tagAt s.cfg.k = .ok ts
          ∧ baddEffect s = s.setBits (setBitsAt (ts.map (idx s.cfg.log2m)) s.mem.bits) := by
  simp only [baddEffect]
  split
  · exact .inl ⟨_, by assumption, rfl⟩
  · exact .inr ⟨_, by assumption, rfl⟩

theorem btestEffect_cases (s : State) :
    (∃ i, collect s.tagAt s.cfg.k = .error i ∧ btestEffect s = s.takeFaultAt .tagUnwritten i 0x23)
      ∨ ∃ ts, collect s.tagAt s.cfg.k = .ok ts ∧ btestEffect s =
          (s.setMatch (testResult s.cfg.log2m s.mem.bits ts)).push
            (zextBit (testResult s.cfg.log2m s.mem.bits ts)) := by
  simp only [btestEffect]
  split
  · exact .inl ⟨_, by assumption, rfl⟩
  · exact .inr ⟨_, by assumption, rfl⟩

theorem kinitEffect_cases (s : State) :
    (∃ i, collect s.slotWords s.cfg.k = .error i ∧ kinitEffect s = s.takeFaultAt .keyUnwritten i 0x31)
      ∨ ∃ ks, collect s.slotWords s.cfg.k = .ok ks
          ∧ kinitEffect s = s.setLanes (ks.map fun kw => .active (initRegs kw.1 kw.2)) := by
  simp only [kinitEffect]
  split
  · exact .inl ⟨_, by assumption, rfl⟩
  · exact .inr ⟨_, by assumption, rfl⟩

theorem kdataEffect_cases (n : BitVec 3) (data : Word) (s : State) :
    (∃ i, collect s.activeLane s.cfg.k = .error i
        ∧ kdataEffect n data s = s.takeFaultAt .laneNotActive i 0x32)
      ∨ ∃ rs, collect s.activeLane s.cfg.k = .ok rs ∧ kdataEffect n data s =
          s.setLanes (rs.map fun r => .active (absorbAll s.cfg.c r (chunk n data))) := by
  simp only [kdataEffect]
  split
  · exact .inl ⟨_, by assumption, rfl⟩
  · exact .inr ⟨_, by assumption, rfl⟩

theorem kaddEffect_cases (s : State) :
    (∃ i, collect s.activeLane s.cfg.k = .error i ∧ kaddEffect s = s.takeFaultAt .laneNotActive i 0x33)
      ∨ ∃ rs, collect s.activeLane s.cfg.k = .ok rs ∧ kaddEffect s =
          (s.finalizeAll rs).setBits (setBitsAt ((s.finalTags rs).map (idx s.cfg.log2m)) s.mem.bits) := by
  simp only [kaddEffect]
  split
  · exact .inl ⟨_, by assumption, rfl⟩
  · exact .inr ⟨_, by assumption, rfl⟩

theorem ktestEffect_cases (s : State) :
    (∃ i, collect s.activeLane s.cfg.k = .error i ∧ ktestEffect s = s.takeFaultAt .laneNotActive i 0x34)
      ∨ ∃ rs, collect s.activeLane s.cfg.k = .ok rs ∧ ktestEffect s =
          ((s.finalizeAll rs).setMatch (testResult s.cfg.log2m s.mem.bits (s.finalTags rs))).push
            (zextBit (testResult s.cfg.log2m s.mem.bits (s.finalTags rs))) := by
  simp only [ktestEffect]
  split
  · exact .inl ⟨_, by assumption, rfl⟩
  · exact .inr ⟨_, by assumption, rfl⟩

end Sys2Proof.Machine
end

