-- ==== Sys2Proof/Laws/PerInstr.lean ====
section
/-! SUPPORT. One lemma per command for the family `OpField`: the OP field of a command's word is the code of its
opcode, which names that opcode and no other (30_encoding.md R77). -/

namespace Sys2Proof.Laws.OpField

open Sys2Proof

/-- The OP field of the encoded command is its opcode's code, and decodes to that opcode. -/
def Statement (i : Instr) : Prop := opField (encode i) = i.op.code ∧ Op.ofCode? (opField (encode i)) = some i.op

theorem of_encode (i : Instr) : Statement i := ⟨opField_encode i, opField_encode i ▸ Op.ofCode?_code i.op⟩

theorem nop : Statement .nop := of_encode _
theorem status : Statement .status := of_encode _
theorem hinit (lane : Byte) : Statement (.hinit lane) := of_encode _
theorem hdata (lane : Byte) (n : BitVec 3) (data : Word) : Statement (.hdata lane n data) := of_encode _
theorem hfinal (lane : Byte) : Statement (.hfinal lane) := of_encode _
theorem twr (lane : Byte) (data : Word) : Statement (.twr lane data) := of_encode _
theorem trd (lane : Byte) : Statement (.trd lane) := of_encode _
theorem badd : Statement .badd := of_encode _
theorem btest : Statement .btest := of_encode _
theorem bclear : Statement .bclear := of_encode _
theorem kwr (slot : Byte) (h : Half) (data : Word) : Statement (.kwr slot h data) := of_encode _
theorem kinit : Statement .kinit := of_encode _
theorem kdata (n : BitVec 3) (data : Word) : Statement (.kdata n data) := of_encode _
theorem kadd : Statement .kadd := of_encode _
theorem ktest : Statement .ktest := of_encode _

end Sys2Proof.Laws.OpField
end

