-- ==== Sys2Proof/Laws/Step.lean ====
section
/-! SUPPORT. Everything a step can do, said once: the inversion of `step` and of the command cycle. Invariants are
derived from these, not from the definitions. -/

namespace Sys2Proof.Machine

open Sys2Proof

theorem completeCycle_next {o : Host.Outcome State Fault Refusal} {t : State} (h : completeCycle o = .next t) :
    ∃ u, o = .next u ∧ t = u.advance := by
  cases o <;> simp_all [completeCycle]

/-- What a consumed word can do (R82): nothing but the index while halted, STATUS while halted, the fault of its
decoding, or its command. -/
theorem runWord_cases {w : CmdWord} {s t : State} (h : runWord w s = .next t) :
    (s.record.halted = true ∧ w ≠ statusCommand ∧ t = s.advance)
      ∨ (s.record.halted = true ∧ w = statusCommand ∧ ∃ u, exec .status s = .next u ∧ t = u.advance)
      ∨ (s.record.halted = false ∧ ∃ c lane, decode s.cfg.k w = .fault c lane
          ∧ t = (s.takeFault c lane (opField w)).advance)
      ∨ (s.record.halted = false ∧ ∃ i u, decode s.cfg.k w = .op i ∧ exec i s = .next u ∧ t = u.advance) := by
  simp only [runWord] at h
  split at h
  · rename_i hh
    split at h
    · exact .inr (.inl ⟨hh, by assumption, completeCycle_next h⟩)
    · exact .inl ⟨hh, by assumption, by simpa using h.symm⟩
  · rename_i hh
    have hh : s.record.halted = false := by simpa using hh
    split at h
    · exact .inr (.inr (.inl ⟨hh, _, _, by assumption, by simpa using h.symm⟩))
    · obtain ⟨u, hu, ht⟩ := completeCycle_next h
      exact .inr (.inr (.inr ⟨hh, _, u, by assumption, hu, ht⟩))

/-- What the engine can do in its turn: idle, hold, or consume the front word. -/
theorem engineStep_cases {u t : State} (h : engineStep u = .next t) :
    (u.port = [] ∧ t = u)
      ∨ ∃ w rest, u.port = w :: rest
          ∧ ((u.hasRoom (mayPush w) = false ∧ t = u)
            ∨ (u.hasRoom (mayPush w) = true ∧ runWord w { u with port := rest } = .next t)) := by
  simp only [engineStep] at h
  split at h
  · exact .inl ⟨by assumption, by simpa using h.symm⟩
  · rename_i w rest hp
    refine .inr ⟨w, rest, hp, ?_⟩
    split at h
    · exact .inr ⟨by assumption, h⟩
    · exact .inl ⟨Bool.not_eq_true _ ▸ ‹¬ u.hasRoom (mayPush w) = true›, by simpa using h.symm⟩

/-- In the engine's turn a step is the engine's step. -/
theorem step_of_engineTurn {s u : State} (h : s.EngineTurn u) : step s = engineStep u := by
  rcases h with ⟨hh, rfl⟩ | ⟨ms, hh, rfl⟩ <;> simp [step, machineStep, hh]

/-- What a step can be: the engine's, or one of the host's three moves. -/
theorem step_cases {s t : State} (h : step s = .next t) :
    (∃ u, s.EngineTurn u ∧ engineStep u = .next t)
      ∨ (∃ w ms, s.host = .issue w :: ms ∧ t = State.issueByHost { s with host := ms } w)
      ∨ (∃ ms, s.host = .readResponse :: ms ∧ t = State.readByHost { s with host := ms })
      ∨ (∃ ms, s.host = .assertReset :: ms ∧ t = { State.resetWith s.cfg with host := ms }) := by
  simp only [step, machineStep] at h
  split at h
  · exact .inl ⟨s, .inl ⟨by assumption, rfl⟩, h⟩
  · exact .inr (.inl ⟨_, _, by assumption, by simpa using h.symm⟩)
  · exact .inr (.inr (.inl ⟨_, by assumption, by simpa using h.symm⟩))
  · exact .inr (.inr (.inr ⟨_, by assumption, by simpa [State.resetByHost] using h.symm⟩))
  · exact .inl ⟨_, .inr ⟨_, by assumption, rfl⟩, h⟩

/-- The engine's turn changes at most the host's moves. -/
theorem EngineTurn_eq {s u : State} (h : s.EngineTurn u) : u = { s with host := u.host } := by
  rcases h with ⟨-, rfl⟩ | ⟨ms, -, rfl⟩ <;> rfl

theorem runWords_append (xs ys : List CmdWord) (s : State) :
    runWords (xs ++ ys) s =
      match runWords xs s with
      | .next t => runWords ys t
      | .fault r => .fault r
      | .refused r => .refused r := by
  induction xs generalizing s with
  | nil => rfl
  | cons w ws ih =>
    simp only [List.cons_append, runWords]
    cases runWord w s <;> simp [ih]

/-! ### Runs (60_exceptions.md R190) -/

@[simp] theorem ended_iff (s : State) : s.ended = true ↔ s.port = [] ∧ deliversNoMore s.host = true := by
  simp [State.ended]

@[simp] theorem pushed_push (s : State) (w : Word) : (s.push w).pushed = s.pushed ++ [w] := by
  simp [State.push, State.pushed]

/-- A read moves a word from RESP to the words read; the words pushed are the same. -/
@[simp] theorem pushed_readByHost (s : State) : s.readByHost.pushed = s.pushed := by
  simp only [State.readByHost]
  split <;> simp [State.pushed, *]

end Sys2Proof.Machine
end

