-- ==== Sys2Proof/Tests/Slice0.lean ====
section
/-! SUPPORT. The model's own tests. Expected values are those of spec/95_test_vectors.md and of the rules' examples.
Part 1: well-formedness. Part 2: decoding. Part 3: one step of each command. Part 4: a witness for each statement with
hypotheses. -/

namespace Sys2Proof.Tests

open Sys2Proof Sys2Proof.Machine Sys2Proof.Claims

/-! ### Small states -/

/-- K = 2, M = 2^log2m, with the rounds of one of the two vectors' presets, and a response depth. -/
def config (log2m c d : Nat) (depth : Option Nat) (hl : log2m ≤ 32 := by decide) (hc : 1 ≤ c := by decide)
    (hd : 1 ≤ d := by decide) (hr : 2 ≤ depth.getD 2 := by decide) : Config :=
  ⟨2, log2m, c, d, depth, by decide, hl, hc, hd, hr⟩

/-- The key bytes of 95_test_vectors.md: slot 0 is KA = 00 .. 07, slot 1 is KB = 10 .. 17. -/
def keyAB (a : Nat) : Byte := BitVec.ofNat 8 (if a < 8 then a else 0x10 + (a - 8))

def keysAB : List Host.Cell := (List.range 16).map fun a => (a, keyAB a)

/-- Reset of `cfg`, then the keys KA and KB. -/
def keyed (cfg : Config) : State := { State.resetWith cfg with mem := { keys := keysAB, bits := [] } }

def s24 : State := keyed (config 8 2 4 none)
def s13 : State := keyed (config 8 1 3 none)

/-- Both lanes ACTIVE after KINIT and the bytes `bs`. -/
def fed (s : State) (bs : List Byte) : State :=
  { s with lanes := [.active (absorbAll s.cfg.c (initRegs 0x03020100 0x07060504) bs),
                     .active (absorbAll s.cfg.c (initRegs 0x13121110 0x17161514) bs)] }

def alpha : List Byte := [0x61, 0x6C, 0x70, 0x68, 0x61]
def beta : List Byte := [0x62, 0x65, 0x74, 0x61]

/-- M = 16, with two tags. -/
def tagged (t0 t1 : Word) (bits : List Nat) : State :=
  { State.resetWith (config 4 2 4 none) with tags := [some t0, some t1], mem := { keys := [], bits := bits } }

/-- The next state of an outcome, for reading its fields. -/
def after (o : Host.Outcome State Fault Refusal) : Option State :=
  match o with
  | .next t => some t
  | .fault _ => none
  | .refused _ => none

/-- STATUS's two words after `w` runs at `s` (95_test_vectors.md section 2.8). -/
def statusAfter (s : State) (w : CmdWord) : Option (List Word) :=
  (after (runWords [w, 0x0100000000000000] s)).map (·.resp)

/-! ### Part 1: well-formedness -/

theorem test_wf_accepts : (Instr.hdata 1 2 0x6568).WellFormed 2 := by decide
/-- `laneInRange` refuses LANE = K (30_encoding.md R71). -/
theorem test_wf_lane : ¬ (Instr.hinit 2).WellFormed 2 := by decide
/-- `countLegal` refuses N = 5 (R72). -/
theorem test_wf_count : ¬ (Instr.kdata 5 0).WellFormed 2 := by decide
/-- `chunkClean` refuses a data byte at N (R75). -/
theorem test_wf_chunk : ¬ (Instr.hdata 0 1 0x100).WellFormed 2 := by decide

/-! ### Part 2: decoding. Each word is the spec's field layout written out, most significant bit first -/

theorem test_decode_nop : decode 2 0x0000000000000000 = .op .nop := by decide
theorem test_decode_status :
    decode 2 0b0000000100000000000000000000000000000000000000000000000000000000 = .op .status := by decide
theorem test_decode_hinit :
    decode 2 0b0001000000000001000000000000000000000000000000000000000000000000 = .op (.hinit 1) := by decide
/-- `HDATA 0, "he"`: OP 11, LANE 0, N = 2, byte 0 = 'h'. -/
theorem test_decode_hdata :
    decode 2 0b0001000100000000000000100000000000000000000000000110010101101000 = .op (.hdata 0 2 0x6568) := by
  decide
theorem test_decode_hfinal :
    decode 2 0b0001001000000001000000000000000000000000000000000000000000000000 = .op (.hfinal 1) := by decide
theorem test_decode_twr :
    decode 2 0b0010000000000001000000000000000011011110101011011011111011101111 = .op (.twr 1 0xDEADBEEF) := by
  decide
theorem test_decode_trd :
    decode 2 0b0010000100000001000000000000000000000000000000000000000000000000 = .op (.trd 1) := by decide
theorem test_decode_badd : decode 2 0x2200000000000000 = .op .badd := by decide
theorem test_decode_btest : decode 2 0x2300000000000000 = .op .btest := by decide
theorem test_decode_bclear : decode 2 0x2400000000000000 = .op .bclear := by decide
/-- `KWR 1, 1, 0x17161514`: H is bit 43. -/
theorem test_decode_kwr :
    decode 2 0b0011000000000001000010000000000000010111000101100001010100010100 = .op (.kwr 1 .second 0x17161514) := by
  decide
theorem test_decode_kinit : decode 2 0x3100000000000000 = .op .kinit := by decide
/-- `KDATA "a"`: N = 1 is bits 42:40. -/
theorem test_decode_kdata :
    decode 2 0b0011001000000000000000010000000000000000000000000000000001100001 = .op (.kdata 1 0x61) := by decide
theorem test_decode_kadd : decode 2 0x3300000000000000 = .op .kadd := by decide
theorem test_decode_ktest : decode 2 0x3400000000000000 = .op .ktest := by decide

/-- The decode faults of 95_test_vectors.md section 2.8, rows 1 to 6 and 9 to 12, with K = 1. -/
theorem test_decode_faults :
    decode 1 0x0200000000000000 = .fault .illegalOpcode 0 ∧ decode 1 0xFF00000000000000 = .fault .illegalOpcode 0
      ∧ decode 1 0x02000000000000FF = .fault .illegalOpcode 0
      ∧ decode 1 0x0000000000000001 = .fault .reservedNonzero 0
      ∧ decode 1 0x0000100000000000 = .fault .reservedNonzero 0
      ∧ decode 1 0x0000000100000000 = .fault .reservedNonzero 0
      ∧ decode 1 0x11000700FFFFFFFF = .fault .badCount 0 ∧ decode 1 0x1100010000000100 = .fault .reservedNonzero 0
      ∧ decode 1 0x1101010000000100 = .fault .reservedNonzero 0 ∧ decode 1 0x1101050000000000 = .fault .badCount 0 := by
  decide

/-- The opcode map's edges (R79). -/
theorem test_decode_edges :
    (∀ op ∈ [0x02, 0x0F, 0x13, 0x1F, 0x25, 0x2F, 0x35], decode 2 (op <<< 56) = .fault .illegalOpcode 0)
      ∧ decode 256 0x10FF000000000000 = .op (.hinit 255) := by decide

theorem test_table_word : decodeTableWord 64 0x3300000000000000 = some .kadd := by decide

/-- A word placed for the next step is run by it (log 14): from reset, `TWR 1, 0xFFFFFFFF`. -/
theorem test_fetch_word :
    (after (step (State.reset.withFetchWord 64 0x20010000FFFFFFFF))).map (fun t => (t.tags, t.ci, t.port))
      = some ([none, some 0xFFFFFFFF], 1, []) := by decide

/-! ### Part 3: one step of each command -/

/-- R160's example: NOP at CI = 7 changes CI alone. -/
theorem test_nop : runWord 0 { s24 with ci := 7 } = .next { s24 with ci := 8 } := rfl

/-- 95 program P3: the record of `HDATA 1, "A"` on an IDLE lane at CI = 3. -/
theorem test_status :
    statusAfter { s24 with ci := 3 } 0x1101010000000041 = some [0x0011010D, 0x00000003] := by decide
/-- 95 section 2.7: MATCH is bit 5. -/
theorem test_status_match :
    (after (exec .status { s24 with matched := true })).map (·.resp) = some [0x00000020, 0] := by decide

/-- 95 section 2.2: V after Init from KB; lane 0 untouched. -/
theorem test_hinit :
    (after (exec (.hinit 1) s24)).map (·.lanes)
      = some [.idle, .active ⟨⟨0x13121110, 0x17161514, 0x7F6B7675, 0x63737176⟩, .zero, 0⟩] := by decide
/-- 95 section 2.8 row 16: HINIT of an unwritten slot. -/
theorem test_hinit_unwritten : statusAfter State.reset 0x1000000000000000 = some [0x0010000B, 0] := by decide

/-- 95 section 2.3: "abcd" compresses one block. -/
theorem test_hdata_block :
    (after (exec (.hdata 0 4 0x64636261) (fed s24 []))).map (·.lanes[0]?)
      = some (some (.active ⟨⟨0xF2C88A24, 0x6B7F1C94, 0x148400BF, 0x29D0F200⟩, .zero, 4⟩)) := by decide
/-- 95 section 2.3: an unaligned chunk, "ab" then "cdxy", leaves 'x', 'y' pending and BC = 6. -/
theorem test_hdata_unaligned :
    (after (exec (.hdata 0 4 0x79786463) (fed s13 [0x61, 0x62]))).map (·.lanes[0]?)
      = some (some (.active ⟨⟨0xE81F1AE2, 0x659492A9, 0x0FF07144, 0xB04B4540⟩, .two 0x78 0x79, 6⟩)) := by decide

/-- 95 section 2.4: the empty input's tag, in TAG and in RESP. -/
theorem test_hfinal :
    (after (exec (.hfinal 0) (fed s24 []))).map (fun t => (t.tags, t.resp)) = some ([some 0x5B9F35A9, none], [0x5B9F35A9]) := by
  decide
/-- 95 section 2.4: "abcdxy" with (1, 3): V after Finalize, DONE. -/
theorem test_hfinal_regs :
    (after (exec (.hfinal 0) (fed s13 [0x61, 0x62, 0x63, 0x64, 0x78, 0x79]))).map (fun t => (t.lanes[0]?, t.resp))
      = some (some (.done ⟨⟨0x1361569F, 0x3262818E, 0x290F5B8B, 0x52F745E4⟩, .two 0x78 0x79, 6⟩), [0x6095C46A]) := by
  decide

/-- R121's example. -/
theorem test_twr : (after (exec (.twr 0 0x12345678) s24)).map (·.tags) = some [some 0x12345678, none] := by decide
/-- 95 section 2.8 row 14: LANE = 255 with K = 2. -/
theorem test_trd_range : statusAfter State.reset 0x21FF000000000000 = some [0x0021FF07, 0] := by decide
/-- R122's example. -/
theorem test_trd : (after (exec (.trd 0) (tagged 0x12345678 0 []))).map (·.resp) = some [0x12345678] := by decide

/-- R123's example: bits 8 and 15. -/
theorem test_badd :
    (after (exec .badd (tagged 0x12345678 0xFFFFFFFF []))).map (·.mem.bits) = some [8, 15] := by decide
/-- 95 program P5: TAG[1] unwritten; no bit is set. -/
theorem test_badd_unwritten :
    (after (exec .badd { tagged 5 0 [] with tags := [some 5, none] })).map (fun t => (t.record, t.mem.bits))
      = some (⟨true, 7, 1, 0x22, 0⟩, []) := by decide

/-- R124's example: 1 with both bits set. -/
theorem test_btest :
    (after (exec .btest (tagged 0x12345678 0xFFFFFFFF [8, 15]))).map (fun t => (t.matched, t.resp)) = some (true, [1]) := by
  decide
/-- R124's example: 0 once TAG[1] selects bit 14; the earlier MATCH is overwritten. -/
theorem test_btest_unset :
    (after (exec .btest { tagged 0x12345678 0x0000000E [8, 15] with matched := true })).map (fun t => (t.matched, t.resp))
      = some (false, [0]) := by decide

/-- 95 section 2.5: BCLEAR clears the bits and leaves MATCH and the tags. -/
theorem test_bclear :
    exec .bclear { tagged 0x18 0x8 [8, 15] with matched := true }
      = .next { tagged 0x18 0x8 [] with matched := true } := rfl

/-- R141's example: four bytes, least significant first; half 1 stays unwritten. -/
theorem test_kwr :
    (after (exec (.kwr 0 .first 0x03020100) State.reset)).map (fun t => (t.mem.keys, t.kval 0 .first, t.kval 0 .second))
      = some ([(0, 0), (1, 1), (2, 2), (3, 3)], true, false) := by decide
/-- 95 section 2.8 row 15: slot 2 with K = 2. -/
theorem test_kwr_range : statusAfter State.reset 0x3002000000000000 = some [0x00300207, 0] := by decide

/-- R142's example. -/
theorem test_kinit :
    (after (exec .kinit s24)).map (·.lanes)
      = some [.active ⟨⟨0x03020100, 0x07060504, 0x6F7B6665, 0x73636166⟩, .zero, 0⟩,
              .active ⟨⟨0x13121110, 0x17161514, 0x7F6B7675, 0x63737176⟩, .zero, 0⟩] := by decide
/-- 95 program P6: slot 1's second half unwritten; no lane is initialized. -/
theorem test_kinit_half :
    (after (exec .kinit { s24 with mem := { keys := keysAB.take 12, bits := [] } })).map (fun t => (t.record, t.lanes))
      = some (⟨true, 5, 1, 0x31, 0⟩, [.idle, .idle]) := by decide

/-- R143's example: PL = 1, PB[0] = 'a', BC = 5 in both lanes. -/
theorem test_kdata :
    (after (exec (.kdata 1 0x61) (fed s24 (alpha.take 4)))).map (fun t => t.lanes.map fun l =>
        match l with
        | .active r => some (r.pending, r.bc)
        | .idle | .done _ => none)
      = some [some (.one 0x61, 5), some (.one 0x61, 5)] := by decide
/-- R143: n = 0 still needs every lane ACTIVE; the lowest that is not is reported. -/
theorem test_kdata_inactive :
    (after (exec (.kdata 0 0) s24)).map (·.record) = some ⟨true, 6, 0, 0x32, 0⟩ := by decide

/-- R144's example, (2, 4): the tags of "alpha" and bits 114 and 49; nothing is pushed. -/
theorem test_kadd :
    (after (exec .kadd (fed s24 alpha))).map (fun t => (t.tags, t.mem.bits, t.resp))
      = some ([some 0x206C3B72, some 0xD5DB7731], [49, 114], []) := by decide
/-- 95 section 2.8 row 22: lane 1 IDLE. -/
theorem test_kadd_inactive :
    (after (exec .kadd { fed s24 [] with lanes := [.active (initRegs 0 0), .idle] })).map (fun t => (t.record, t.mem.bits))
      = some (⟨true, 6, 1, 0x33, 0⟩, []) := by decide

/-- R145's example, (1, 3): "beta" after "alpha" tests 0, every tag written. -/
theorem test_ktest_absent :
    (after (exec .ktest { fed s13 beta with mem := { keys := keysAB, bits := [165, 244] } })).map
        (fun t => (t.tags, t.matched, t.resp, t.mem.bits))
      = some ([some 0xD9BB5174, some 0x16816389], false, [0], [165, 244]) := by decide
/-- R145's example, (2, 4): "alpha" after "alpha" tests 1. -/
theorem test_ktest_present :
    (after (exec .ktest { fed s24 alpha with mem := { keys := keysAB, bits := [49, 114] } })).map
        (fun t => (t.matched, t.resp))
      = some (true, [1]) := by decide

/-- 95 section 2.1: two rows of the round, and the all-ones corner. -/
theorem test_round :
    mixRound ⟨1, 0, 0, 0⟩ = ⟨0x00010000, 0x00002001, 0x00010000, 0x00010000⟩
      ∧ mixRound ⟨0, 0, 0, 1⟩ = ⟨0x00000101, 0x00000001, 0x00010000, 0x00008181⟩
      ∧ mixRound ⟨0xFFFFFFFF, 0xFFFFFFFF, 0xFFFFFFFF, 0xFFFFFFFF⟩
          = ⟨0xFFFF0000, 0xFFFFDFFF, 0xFFFFFFFF, 0xFFFF0080⟩ := by decide

/-- 95 section 2.5: the index at the ends of LOG2M. -/
theorem test_idx :
    idx 0 0xFFFFFFFF = 0 ∧ idx 8 0x206C3B72 = 114 ∧ idx 10 0x12345678 = 632 ∧ idx 32 0xFFFFFFFF = 4294967295 := by
  decide

/-- 95 section 2.9: a malformed STATUS is discarded while halted, STATUS answers. -/
theorem test_halted :
    (after (runWords [0x1000000000000000, 0x0100000000000001, 0x0100000000000000] State.reset)).map
        (fun t => (t.resp, t.ci)) = some ([0x0010000B, 0], 3) := by decide

/-! ### Part 4: for each statement with hypotheses, values that meet all of them -/

/-- `s` with one word on the command port, the engine to move. -/
def present (s : State) (w : CmdWord) : State := { s with port := [w] }

/-- RESP_DEPTH = 2 with one unread response: a command of one response fits, STATUS does not. -/
def nearlyFull : State := { keyed (config 8 2 4 (some 2)) with resp := [7], tags := [some 1, some 2] }

/-- No word of a list is the word `v`. -/
theorem ne_all {v : CmdWord} {ws : List CmdWord} (h : ws.contains v = false) : ∀ w ∈ ws, w ≠ v := by
  rintro w hw rfl
  simp [hw] at h

/-- A halted engine. -/
def halted : State := faulted s24 6 1 0x11

/-- The registers of the two lanes of `fed s24 bs`. -/
def regsAt (bs : List Byte) (i : Nat) : LaneRegs :=
  absorbAll 2 (if i = 0 then initRegs 0x03020100 0x07060504 else initRegs 0x13121110 0x17161514) bs

def tagAB (i : Nat) : Word := if i = 0 then 0x12345678 else 0xFFFFFFFF

theorem turn_now (s : State) (h : s.host = [] := by rfl) : s.EngineTurn s := .inl ⟨h, rfl⟩

theorem turn_wait (s : State) (ms : List HostMove) :
    ({ s with host := .wait :: ms } : State).EngineTurn { s with host := ms } := .inr ⟨ms, rfl, rfl⟩

theorem witness_EveryStepKeepsTheInvariant :
    (present s24 0x3100000000000000).Inv ∧ (present nearlyFull 0x2100000000000000).Inv ∧ halted.Inv
      ∧ (∃ t, step (present s24 0x3100000000000000) = .next t ∧ t.lanes ≠ s24.lanes) :=
  ⟨by decide, by decide, by decide, _, rfl, by decide⟩

theorem witness_NoStepChangesTheConfiguration : ∃ t, step (present s24 0x3300000000000000) = .next t := ⟨_, rfl⟩

/-- A response that just fits, and a turn after `wait`. -/
theorem witness_StepRunsTheDecodedCommand :
    let u := present nearlyFull 0x2100000000000000
    (u.EngineTurn u ∧ u.port = [0x2100000000000000] ∧ u.hasRoom (mayPush 0x2100000000000000) = true
        ∧ u.record.halted = false ∧ decode u.cfg.k 0x2100000000000000 = .op (.trd 0)
        ∧ ∃ t, exec (.trd 0) { u with port := [] } = .next t)
      ∧ ({ u with host := [.wait] } : State).EngineTurn u :=
  ⟨⟨turn_now _, rfl, by decide, rfl, by decide, _, rfl⟩, turn_wait _ _⟩

/-- CI wraps at the last index; no word; a word held; a move of the host; reset. -/
theorem witness_CommandIndexCountsConsumedWords :
    (∃ t, (present { s24 with ci := 0xFFFFFFFF } 0).EngineTurn (present { s24 with ci := 0xFFFFFFFF } 0)
        ∧ step (present { s24 with ci := 0xFFFFFFFF } 0) = .next t
        ∧ (present { s24 with ci := 0xFFFFFFFF } 0).port = [0]
        ∧ (present { s24 with ci := 0xFFFFFFFF } 0).hasRoom (mayPush 0) = true)
      ∧ (∃ t, s24.EngineTurn s24 ∧ step s24 = .next t ∧ s24.port = [])
      ∧ (∃ t, (present nearlyFull statusCommand).EngineTurn (present nearlyFull statusCommand)
          ∧ step (present nearlyFull statusCommand) = .next t
          ∧ (present nearlyFull statusCommand).port = [statusCommand]
          ∧ (present nearlyFull statusCommand).hasRoom (mayPush statusCommand) = false)
      ∧ (∃ t, HostMove.issue 5 ≠ .wait ∧ HostMove.issue 5 ≠ .assertReset
          ∧ step { s24 with host := [.issue 5] } = .next t)
      ∧ (∃ t, step { s24 with host := [.assertReset], ci := 9 } = .next t) :=
  ⟨⟨_, turn_now _, rfl, rfl, rfl⟩, ⟨_, turn_now _, rfl, rfl⟩, ⟨_, turn_now _, rfl, rfl, rfl⟩,
    ⟨_, by decide, by decide, rfl⟩, _, rfl⟩

/-- Lacking room (STATUS needs two), room exactly, and an unbounded stream. -/
theorem witness_EngineHoldsWithoutRoom :
    (∃ t, step (present nearlyFull 0x0100000000000000) = .next t ∧ nearlyFull.cfg.respDepth = some 2
        ∧ 2 < nearlyFull.resp.length + pushLimit ((0x0100000000000000 : CmdWord).toNat / 2 ^ 56))
      ∧ (∃ t, step (present nearlyFull 0x2100000000000000) = .next t
        ∧ nearlyFull.resp.length + pushLimit ((0x2100000000000000 : CmdWord).toNat / 2 ^ 56) ≤ 2)
      ∧ (∃ t, step (present s24 0x0100000000000000) = .next t ∧ s24.cfg.respDepth = none)
      ∧ (present nearlyFull 0x0100000000000000).EngineTurn (present nearlyFull 0x0100000000000000) :=
  ⟨⟨_, rfl, rfl, by decide⟩, ⟨_, rfl, by decide⟩, ⟨_, rfl, rfl⟩, turn_now _⟩

theorem witness_ResetMoveResetsTheEngine :
    ({ halted with host := [.assertReset, .wait] } : State).host = .assertReset :: [.wait] := rfl

theorem witness_HostMovesUseThePortsInOrder :
    ({ s24 with host := [.issue 5] } : State).host = .issue 5 :: []
      ∧ (({ nearlyFull with host := [.readResponse] } : State).host = .readResponse :: [] ∧ nearlyFull.resp = 7 :: [])
      ∧ (({ s24 with host := [.readResponse] } : State).host = .readResponse :: [] ∧ s24.resp = []) :=
  ⟨rfl, ⟨rfl, rfl⟩, rfl, rfl⟩

theorem witness_DecodeInvertsEncode :
    (Instr.hdata 255 4 0xFFFFFFFF).WellFormed 256 ∧ (Instr.kdata 0 0).WellFormed 1
      ∧ (Instr.kwr 0 .second 0xFFFFFFFF).WellFormed 1 := by decide

theorem witness_EveryCommandHasOneEncoding :
    decode 256 0x11FF0400FFFFFFFF = .op (.hdata 255 4 0xFFFFFFFF) := by decide

/-- The last lane in range and the first out of range. -/
theorem witness_DecodeChecksInOrder :
    decode 2 0x1001000000000000 = .op (.hinit 1) ∧ decode 2 0x1002000000000000 = .fault .laneRange 2 := by decide

/-- Both ends of every unassigned range, and the assigned codes beside them. -/
theorem witness_UnassignedOpcodesAreIllegal :
    (∀ op ∈ [0x02, 0x0F, 0x13, 0x1F, 0x25, 0x2F, 0x35, 0xFF],
        (0x02 ≤ op ∧ op ≤ 0x0F) ∨ (0x13 ≤ op ∧ op ≤ 0x1F) ∨ (0x25 ≤ op ∧ op ≤ 0x2F) ∨ 0x35 ≤ op)
      ∧ (∀ op ∈ [0x01, 0x10, 0x12, 0x20, 0x24, 0x30, 0x34],
        ¬ ((0x02 ≤ op ∧ op ≤ 0x0F) ∨ (0x13 ≤ op ∧ op ≤ 0x1F) ∨ (0x25 ≤ op ∧ op ≤ 0x2F) ∨ 0x35 ≤ op))
      ∧ (0xFF00000000000000 : CmdWord).toNat / 2 ^ 56 = 0xFF := by decide

theorem witness_RoundIsInjective : mixRound ⟨0, 0, 0, 0⟩ = mixRound ⟨0, 0, 0, 0⟩ := rfl

/-- "he" + "llo", and a zero-length chunk + "hell" + "o". -/
def helloA : List (BitVec 3 × Word) := [(2, 0x6568), (3, 0x6F6C6C)]
def helloB : List (BitVec 3 × Word) := [(0, 0), (4, 0x6C6C6568), (1, 0x6F)]

theorem legal_hello : LegalChunks helloA ∧ LegalChunks helloB ∧ streamOf helloA = streamOf helloB := by
  refine ⟨?_, ?_, by decide⟩ <;> simp [LegalChunks, LegalChunk, helloA, helloB]

theorem witness_ChunkingDoesNotMatter :
    (fed s24 []).record.halted = false ∧ (1 : Byte).toNat < (fed s24 []).cfg.k
      ∧ (fed s24 []).lanes[(1 : Byte).toNat]? = some (.active (regsAt [] 1))
      ∧ LegalChunks helloA ∧ LegalChunks helloB ∧ streamOf helloA = streamOf helloB :=
  ⟨rfl, by decide, by decide, legal_hello⟩

theorem witness_HashSequenceDeliversTheTag :
    s24.record.halted = false ∧ (1 : Byte).toNat < s24.cfg.k ∧ s24.lanes.length = s24.cfg.k
      ∧ s24.tags.length = s24.cfg.k
      ∧ (∀ j < 8, readKey (8 * (1 : Byte).toNat + j) s24.mem.keys = some (keyAB (8 * (1 : Byte).toNat + j)))
      ∧ LegalChunks helloB :=
  ⟨rfl, by decide, by decide, by decide, by decide, legal_hello.2.1⟩

/-- The all-zero word, the largest word with OP 0, and a halted engine. -/
theorem witness_NopOnlyAdvancesTheIndex :
    (present s24 0).EngineTurn (present s24 0) ∧ (present s24 0).port = [0] ∧ (present s24 0).hasRoom 0 = true
      ∧ (0 : CmdWord).toNat < 2 ^ 56 ∧ (0x00FFFFFFFFFFFFFF : CmdWord).toNat < 2 ^ 56
      ∧ (present halted 1).EngineTurn (present halted 1) ∧ halted.record.halted = true :=
  ⟨turn_now _, rfl, rfl, by decide, by decide, turn_now _, rfl⟩

theorem witness_HinitLoadsTheKey :
    (1 : Byte).toNat < s24.cfg.k
      ∧ (∀ j < 8, readKey (8 * (1 : Byte).toNat + j) s24.mem.keys = some (keyAB (8 * (1 : Byte).toNat + j))) := by
  decide

/-- The empty chunk, and a chunk that completes a block. -/
theorem witness_HdataAbsorbsTheChunk :
    (1 : Byte).toNat < (fed s24 beta).cfg.k ∧ LegalChunk 0 0 ∧ LegalChunk 4 0xFFFFFFFF
      ∧ (fed s24 beta).lanes[(1 : Byte).toNat]? = some (.active (regsAt beta 1)) := by
  unfold LegalChunk
  decide

theorem witness_HfinalDeliversTheTag :
    (1 : Byte).toNat < (fed s24 beta).cfg.k
      ∧ (fed s24 beta).lanes[(1 : Byte).toNat]? = some (.active (regsAt beta 1)) := by decide

theorem witness_TagRegisterReadsBackWhatWasWritten :
    (1 : Byte).toNat < s24.cfg.k ∧ s24.tags.length = s24.cfg.k := by decide

theorem witness_TrdPushesTheTag :
    (1 : Byte).toNat < nearlyFull.cfg.k ∧ nearlyFull.tags[(1 : Byte).toNat]? = some (some 2) := by decide

theorem witness_BaddSetsTheTagBits :
    ∀ i < (tagged 0x12345678 0xFFFFFFFF []).cfg.k,
      (tagged 0x12345678 0xFFFFFFFF []).tags[i]? = some (some (tagAB i)) := by decide

/-- Both results are met: the bits set, and one of them not. -/
theorem witness_BtestIsTheConjunction :
    (∀ i < (tagged 0x12345678 0xFFFFFFFF [8, 15]).cfg.k,
        (tagged 0x12345678 0xFFFFFFFF [8, 15]).tags[i]? = some (some (tagAB i)))
      ∧ (∀ i < (tagged 0x12345678 0xFFFFFFFF [8]).cfg.k,
        (tagged 0x12345678 0xFFFFFFFF [8]).tags[i]? = some (some (tagAB i))) := by decide

theorem witness_KwrWritesOneHalf : (0 : Byte).toNat < s24.cfg.k ∧ (1 : Byte).toNat < s24.cfg.k := by decide

theorem keys_s24 : KeysAre s24 keyAB := by
  unfold KeysAre
  decide

theorem witness_KinitLoadsEveryLane : KeysAre s24 keyAB := keys_s24

theorem lanes_fed_alpha : ∀ i < (fed s24 alpha).cfg.k, (fed s24 alpha).lanes[i]? = some (.active (regsAt alpha i)) := by
  decide

theorem witness_KdataAbsorbsIntoEveryLane :
    LegalChunk 3 0xFFFFFF ∧ ∀ i < (fed s24 alpha).cfg.k, (fed s24 alpha).lanes[i]? = some (.active (regsAt alpha i)) :=
  ⟨by unfold LegalChunk; decide, lanes_fed_alpha⟩

theorem witness_KaddAddsTheTags :
    ∀ i < (fed s24 alpha).cfg.k, (fed s24 alpha).lanes[i]? = some (.active (regsAt alpha i)) := lanes_fed_alpha

theorem witness_KtestTestsTheTags :
    ∀ i < (fed s24 alpha).cfg.k, (fed s24 alpha).lanes[i]? = some (.active (regsAt alpha i)) := lanes_fed_alpha

/-- The first and the last lane out of range; then, on the last lane in range, an unwritten half, a lane that is not
ACTIVE and a tag not written. -/
theorem witness_SingleLaneChecksFault :
    (State.reset.cfg.k ≤ (2 : Byte).toNat ∧ State.reset.cfg.k ≤ (255 : Byte).toNat ∧ LegalChunk 4 0xFFFFFFFF)
      ∧ (1 : Byte).toNat < State.reset.cfg.k
      ∧ State.reset.kval (1 : Byte).toNat .second = false
      ∧ (∀ r, State.reset.lanes[(1 : Byte).toNat]? ≠ some (.active r))
      ∧ (∀ tag, State.reset.tags[(1 : Byte).toNat]? ≠ some (some tag)) :=
  ⟨by unfold LegalChunk; decide, by decide, by decide, fun r h => by simp [State.reset, State.resetWith, Config.specExample] at h,
    fun r h => by simp [State.reset, State.resetWith, Config.specExample] at h⟩

/-- The last index fails and the ones below pass, for slots, lanes and tags. -/
theorem witness_LowestFailingIndexIsReported :
    let s : State := { s24 with mem := { keys := keysAB.take 12, bits := [] },
                                lanes := [.active (regsAt [] 0), .done (regsAt [] 1)], tags := [some 5, none] }
    1 < s.cfg.k
      ∧ ((∀ j < 1, s.kval j .first = true ∧ s.kval j .second = true) ∧ s.kval 1 .second = false)
      ∧ ((∀ j < 1, ∃ r, s.lanes[j]? = some (.active r)) ∧ ∀ r, s.lanes[1]? ≠ some (.active r))
      ∧ ((∀ j < 1, ∃ tag, s.tags[j]? = some (some tag)) ∧ ∀ tag, s.tags[1]? ≠ some (some tag)) := by
  refine ⟨by decide, by decide, ⟨fun j hj => ?_, fun r h => by simp at h⟩, fun j hj => ?_, fun r h => by simp at h⟩
  · obtain rfl : j = 0 := by omega
    exact ⟨_, rfl⟩
  · obtain rfl : j = 0 := by omega
    exact ⟨_, rfl⟩

/-- A fault in decoding, and a fault in execution. -/
theorem witness_FaultsArePrecise :
    let u := present s24 0x0200000000000000
    let v := present State.reset 0x1000000000000000
    (u.EngineTurn u ∧ u.port = [0x0200000000000000] ∧ u.hasRoom (mayPush 0x0200000000000000) = true
        ∧ u.record.halted = false ∧ decode u.cfg.k 0x0200000000000000 = .fault .illegalOpcode 0)
      ∧ (v.EngineTurn v ∧ v.record.halted = false ∧ ∃ t, step v = .next t ∧ t.record.halted = true) :=
  ⟨⟨turn_now _, rfl, rfl, rfl, by decide⟩, turn_now _, rfl, _, rfl, rfl⟩

/-- Any word, STATUS and another among them. -/
theorem witness_HaltedEngineOnlyAnswersStatus :
    (∀ w, (present halted w).port = [w] ∧ (present halted w).hasRoom (mayPush w) = true)
      ∧ (present halted 0).EngineTurn (present halted 0) ∧ halted.record.halted = true :=
  ⟨fun _ => ⟨rfl, rfl⟩, turn_now _, rfl⟩

theorem witness_OnlyResetLeavesTheHaltedState :
    (halted.record.halted = true ∧ ∃ t, step (present halted 0) = .next t)
      ∧ ∃ t, step { halted with host := [.assertReset] } = .next t := ⟨⟨rfl, _, rfl⟩, _, rfl⟩

/-- KTEST changes MATCH, tags, lanes and RESP; KADD the bits; KWR the keys; a faulting TRD the fault record. -/
theorem witness_CommandsWriteOnlyTheirState :
    (∃ t, exec .ktest { fed s24 alpha with mem := { keys := keysAB, bits := [49, 114] }, tags := [some 0, none] } = .next t
        ∧ t.matched ≠ s24.matched ∧ t.tags ≠ [some 0, none] ∧ t.lanes ≠ (fed s24 alpha).lanes ∧ t.resp ≠ s24.resp)
      ∧ (∃ t, exec .kadd (fed s24 alpha) = .next t ∧ t.mem.bits ≠ (fed s24 alpha).mem.bits)
      ∧ (∃ t, exec (.kwr 0 .first 0) s24 = .next t ∧ t.mem.keys ≠ s24.mem.keys)
      ∧ (∃ t, exec (.trd 1) s24 = .next t ∧ t.record ≠ s24.record)
      ∧ (nearlyFull.tags.length = nearlyFull.cfg.k ∧ nearlyFull.tags[1]? = some (some 2)) :=
  ⟨⟨_, rfl, by decide, by decide, by decide, by decide⟩, ⟨_, rfl, by decide⟩, ⟨_, rfl, by decide⟩,
    ⟨_, rfl, by decide⟩, by decide⟩

/-- IDLE to ACTIVE by HINIT, ACTIVE to DONE by KTEST. -/
theorem witness_LaneTransitionsAreTheTable :
    (∃ t l', exec (.hinit 1) s24 = .next t ∧ s24.lanes[1]? = some .idle ∧ t.lanes[1]? = some l' ∧ Lane.idle.ls ≠ l'.ls)
      ∧ (∃ t l', exec .ktest (fed s24 []) = .next t ∧ (fed s24 []).lanes[0]? = some (.active (regsAt [] 0))
          ∧ t.lanes[0]? = some l' ∧ (Lane.active (regsAt [] 0)).ls ≠ l'.ls) :=
  ⟨⟨_, _, rfl, rfl, rfl, by decide⟩, _, _, rfl, rfl, rfl, by decide⟩

/-- A command that answers and one that faults. -/
theorem witness_ResponsesAreTheTable :
    (s24.tags.length = s24.cfg.k ∧ s24.record.halted = false)
      ∧ (∃ t, exec (.hfinal 0) (fed s24 []) = .next t ∧ t.record.halted = false)
      ∧ (∃ t, exec (.hfinal 0) s24 = .next t ∧ t.record.halted = true) :=
  ⟨by decide, ⟨_, rfl, rfl⟩, _, rfl, rfl⟩

theorem witness_KeysAreReadOnlyByInit :
    Instr.ktest.op ≠ .hinit ∧ Instr.ktest.op ≠ .kinit ∧ Instr.ktest.op ≠ .kwr
      ∧ ∃ t, exec .ktest (fed s24 []) = .next t := ⟨by decide, by decide, by decide, _, rfl⟩

theorem witness_BaddIsIdempotent :
    (tagged 0x12345678 0xFFFFFFFF []).mem.wf = true
      ∧ ∃ t, exec .badd (tagged 0x12345678 0xFFFFFFFF []) = .next t
          ∧ t.record = (tagged 0x12345678 0xFFFFFFFF []).record := ⟨by decide, _, rfl, rfl⟩

/-- A set bit before a BADD, before a BCLEAR and before reset. -/
theorem witness_BitArrayOnlyGrows :
    bitRead (tagged 1 2 [8]).mem.bits 8 = true
      ∧ (∃ t, step (present (tagged 1 2 [8]) 0x2200000000000000) = .next t)
      ∧ (∃ t, step (present (tagged 1 2 [8]) 0x2400000000000000) = .next t)
      ∧ (∃ t, step { tagged 1 2 [8] with host := [.assertReset] } = .next t) :=
  ⟨by decide, ⟨_, rfl⟩, ⟨_, rfl⟩, _, rfl⟩

/-- BADD, then one tag rewritten, added and restored. -/
theorem witness_AddedTagsAlwaysTestTrue :
    let s := tagged 0x12345678 0xFFFFFFFF []
    let ws : List CmdWord := [0x200100000000000E, 0x2200000000000000, 0x20010000FFFFFFFF]
    (s.record.halted = false ∧ ∀ i < s.cfg.k, s.tags[i]? = some (some (tagAB i)))
      ∧ (∀ w ∈ ws, w ≠ encode .bclear)
      ∧ ∃ t u, runWord (encode .badd) s = .next t ∧ runWords ws t = .next u
          ∧ ∀ i < s.cfg.k, u.tags[i]? = some (some (tagAB i)) :=
  ⟨by decide, ne_all (by decide), _, _, rfl, rfl, by decide⟩

/-- TWRs on an empty array; then a BTEST with both tags, and a KTEST with both lanes ACTIVE. -/
theorem witness_EmptyFilterTestsFalse :
    let s := State.resetWith (config 4 2 4 none)
    let ws : List CmdWord := [0x2000000000000005, 0x2001000000000006]
    (∃ t, exec .bclear (tagged 1 2 [8]) = .next t)
      ∧ ((∀ w ∈ ws, w ≠ encode .badd ∧ w ≠ encode .kadd) ∧ (∀ x, bitRead s.mem.bits x = false)
          ∧ ∃ t, runWords ws s = .next t)
      ∧ (∃ u, (∀ x, bitRead (tagged 5 6 []).mem.bits x = false) ∧ exec .btest (tagged 5 6 []) = .next u
          ∧ (tagged 5 6 []).record.halted = false ∧ u.record.halted = false)
      ∧ (∃ u, (∀ x, bitRead (fed s24 alpha).mem.bits x = false) ∧ exec .ktest (fed s24 alpha) = .next u
          ∧ (fed s24 alpha).record.halted = false ∧ u.record.halted = false) :=
  ⟨⟨_, rfl⟩, ⟨fun w hw => ⟨ne_all (by decide) w hw, ne_all (by decide) w hw⟩, fun _ => rfl, _, rfl⟩,
    ⟨_, fun _ => rfl, rfl, rfl, rfl⟩, _, fun _ => rfl, rfl, rfl, rfl⟩

/-- "alph" + "a", and "" + "al" + "pha". -/
def alphaA : List (BitVec 3 × Word) := [(4, 0x68706C61), (1, 0x61)]
def alphaB : List (BitVec 3 × Word) := [(0, 0), (2, 0x6C61), (3, 0x616870)]

theorem legal_alpha : LegalChunks alphaA ∧ LegalChunks alphaB ∧ streamOf alphaA = streamOf alphaB := by
  refine ⟨?_, ?_, by decide⟩ <;> simp [LegalChunks, LegalChunk, alphaA, alphaB]

theorem witness_KeyedSequencesAddAndTest : s24.record.halted = false ∧ KeysAre s24 keyAB ∧ LegalChunks alphaA :=
  ⟨rfl, keys_s24, legal_alpha.1⟩

/-- After the add, a key half is written again with the same bytes. -/
theorem witness_AddedInputsAlwaysTestTrue :
    (s24.record.halted = false ∧ KeysAre s24 keyAB ∧ LegalChunks alphaA ∧ LegalChunks alphaB
        ∧ streamOf alphaA = streamOf alphaB)
      ∧ (∀ w ∈ [(0x3000000003020100 : CmdWord)], w ≠ encode .bclear)
      ∧ ∃ t u, runWords (kstreamWords alphaA ++ [encode .kadd]) s24 = .next t
          ∧ runWords [0x3000000003020100] t = .next u ∧ u.record.halted = false ∧ KeysAre u keyAB :=
  ⟨⟨rfl, keys_s24, legal_alpha⟩, ne_all (by decide), _, _, rfl, rfl, rfl, by unfold KeysAre; decide⟩

/-- A completed run whose host reads, waits, resets and then starts another run: ended. With a word still to come
before the reset, or one still on the port: not ended (60_exceptions.md R190). -/
theorem test_run_end :
    State.ended { s24 with host := [.readResponse, .wait, .assertReset, .issue 5] } = true
      ∧ State.ended { s24 with host := [.wait, .issue 5, .assertReset] } = false
      ∧ State.ended (present nearlyFull statusCommand) = false := by decide

/-- A halted ended run is faulted, another is successful; an unread word is observed as a read one (R190). -/
theorem test_run_result :
    halted.faulted = true ∧ halted.succeeded = false ∧ s24.succeeded = true
      ∧ State.observation { s24 with resp := [7, 8] } = State.observation { s24 with delivered := [7], resp := [8] } := by
  decide

/-- An ended run whose host still reads a response, waits, or has no move. -/
theorem witness_EndedRunsKeepTheirObservation :
    (∃ t, State.ended { nearlyFull with host := [.readResponse, .assertReset] } = true
        ∧ step { nearlyFull with host := [.readResponse, .assertReset] } = .next t)
      ∧ (∃ t, State.ended { halted with host := [.wait] } = true ∧ step { halted with host := [.wait] } = .next t)
      ∧ (∃ t, s24.ended = true ∧ step s24 = .next t ∧ ∀ ms, s24.host ≠ .assertReset :: ms) :=
  ⟨⟨_, by decide, rfl⟩, ⟨_, by decide, rfl⟩, _, by decide, rfl, fun _ => by simp [s24, keyed, State.resetWith]⟩

end Sys2Proof.Tests
end

section
/-! The engine's state (10_state.md): what a command that answers leaves, said once as a relation; what a command
cycle leaves; and from these the statements about the reset state, the configuration, `CI`, who writes what, and the
invariant. -/

namespace Sys2Proof.Machine

open Sys2Proof

/-! ### What a command leaves -/

/-- `Executes s i t`: command `i`, run at `s`, leaves `t`. One constructor per command, with the guard of its state
check and what it then writes, and one for the fault of any of its checks (60_exceptions.md R172). -/
inductive Executes (s : State) : Instr → State → Prop where
  | fault (i : Instr) (c : Cause) (lane : Byte) : Executes s i (s.takeFault c lane i.op.code)
  | nop : Executes s .nop s
  | status : Executes s .status ((s.push (statusWord s)).push s.record.fidx)
  | hinit {lane : Byte} {k0 k1 : Word} (inRange : lane.toNat < s.cfg.k)
      (written : s.slotWords lane.toNat = some (k0, k1)) :
      Executes s (.hinit lane) (s.setLane lane.toNat (.active (initRegs k0 k1)))
  | hdata {lane : Byte} {n : BitVec 3} {data : Word} {r : LaneRegs} (inRange : lane.toNat < s.cfg.k)
      (active : s.activeLane lane.toNat = some r) :
      Executes s (.hdata lane n data) (s.setLane lane.toNat (.active (absorbAll s.cfg.c r (chunk n data))))
  | hfinal {lane : Byte} {r : LaneRegs} (inRange : lane.toNat < s.cfg.k)
      (active : s.activeLane lane.toNat = some r) :
      Executes s (.hfinal lane)
        (((s.setLane lane.toNat (.done (finalize s.cfg.c s.cfg.d r))).setTag lane.toNat
          (tagOf (finalize s.cfg.c s.cfg.d r))).push (tagOf (finalize s.cfg.c s.cfg.d r)))
  | twr {lane : Byte} {data : Word} (inRange : lane.toNat < s.cfg.k) :
      Executes s (.twr lane data) (s.setTag lane.toNat data)
  | trd {lane : Byte} {tag : Word} (inRange : lane.toNat < s.cfg.k) (valid : s.tagAt lane.toNat = some tag) :
      Executes s (.trd lane) (s.push tag)
  | badd {tags : List Word} (valid : collect s.tagAt s.cfg.k = .ok tags) :
      Executes s .badd (s.setBits (setBitsAt (tags.map (idx s.cfg.log2m)) s.mem.bits))
  | btest {tags : List Word} (valid : collect s.tagAt s.cfg.k = .ok tags) :
      Executes s .btest ((s.setMatch (testResult s.cfg.log2m s.mem.bits tags)).push
        (zextBit (testResult s.cfg.log2m s.mem.bits tags)))
  | bclear : Executes s .bclear (s.setBits [])
  | kwr {slot : Byte} {h : Half} {data : Word} (inRange : slot.toNat < s.cfg.k) :
      Executes s (.kwr slot h data)
        (s.setKeys (memWrite s.mem.keys (8 * slot.toNat + halfOffset h) (keyBytes data)))
  | kinit {ks : List (Word × Word)} (written : collect s.slotWords s.cfg.k = .ok ks) :
      Executes s .kinit (s.setLanes (ks.map fun kw => .active (initRegs kw.1 kw.2)))
  | kdata {n : BitVec 3} {data : Word} {rs : List LaneRegs} (active : collect s.activeLane s.cfg.k = .ok rs) :
      Executes s (.kdata n data) (s.setLanes (rs.map fun r => .active (absorbAll s.cfg.c r (chunk n data))))
  | kadd {rs : List LaneRegs} (active : collect s.activeLane s.cfg.k = .ok rs) :
      Executes s .kadd
        ((s.finalizeAll rs).setBits (setBitsAt ((s.finalTags rs).map (idx s.cfg.log2m)) s.mem.bits))
  | ktest {rs : List LaneRegs} (active : collect s.activeLane s.cfg.k = .ok rs) :
      Executes s .ktest
        (((s.finalizeAll rs).setMatch (testResult s.cfg.log2m s.mem.bits (s.finalTags rs))).push
          (zextBit (testResult s.cfg.log2m s.mem.bits (s.finalTags rs))))

/-- A check of all K indices that passes has read K values (60_exceptions.md R174). -/
theorem length_of_collect_ok {α : Type} {f : Nat → Option α} {n : Nat} {xs : List α} (h : collect f n = .ok xs) :
    xs.length = n := by
  obtain ⟨hlen, -⟩ := collect_ok.mp h
  exact hlen

theorem lt_of_laneInRange {k : Nat} {lane : Byte} (h : laneInRange k lane = true) : lane.toNat < k := by
  simpa [laneInRange] using h

/-- The effect of a command whose operands pass the checks. -/
theorem executes_effectOf {i : Instr} {s : State} (hwf : i.WellFormed s.cfg.k) : Executes s i (effectOf i s) := by
  cases i with
  | nop => exact .nop
  | status => exact .status
  | hinit lane =>
    obtain ⟨-, he⟩ | ⟨k0, k1, hk, he⟩ := hinitEffect_cases lane s <;> rw [effectOf, he]
    · exact .fault (.hinit lane) _ _
    · exact .hinit (lt_of_laneInRange hwf) hk
  | hdata lane n data =>
    simp only [Instr.WellFormed, Instr.wf, Bool.and_eq_true] at hwf
    obtain ⟨⟨hlane, -⟩, -⟩ := hwf
    obtain ⟨-, he⟩ | ⟨r, hr, he⟩ := hdataEffect_cases lane n data s <;> rw [effectOf, he]
    · exact .fault (.hdata lane n data) _ _
    · exact .hdata (lt_of_laneInRange hlane) hr
  | hfinal lane =>
    obtain ⟨-, he⟩ | ⟨r, hr, he⟩ := hfinalEffect_cases lane s <;> rw [effectOf, he]
    · exact .fault (.hfinal lane) _ _
    · exact .hfinal (lt_of_laneInRange hwf) hr
  | twr lane data => exact .twr (lt_of_laneInRange hwf)
  | trd lane =>
    obtain ⟨-, he⟩ | ⟨t, ht, he⟩ := trdEffect_cases lane s <;> rw [effectOf, he]
    · exact .fault (.trd lane) _ _
    · exact .trd (lt_of_laneInRange hwf) ht
  | badd =>
    obtain ⟨j, -, he⟩ | ⟨ts, hts, he⟩ := baddEffect_cases s <;> rw [effectOf, he]
    · exact .fault .badd _ _
    · exact .badd hts
  | btest =>
    obtain ⟨j, -, he⟩ | ⟨ts, hts, he⟩ := btestEffect_cases s <;> rw [effectOf, he]
    · exact .fault .btest _ _
    · exact .btest hts
  | bclear => exact .bclear
  | kwr slot h data => exact .kwr (lt_of_laneInRange hwf)
  | kinit =>
    obtain ⟨j, -, he⟩ | ⟨ks, hks, he⟩ := kinitEffect_cases s <;> rw [effectOf, he]
    · exact .fault .kinit _ _
    · exact .kinit hks
  | kdata n data =>
    obtain ⟨j, -, he⟩ | ⟨rs, hrs, he⟩ := kdataEffect_cases n data s <;> rw [effectOf, he]
    · exact .fault (.kdata n data) _ _
    · exact .kdata hrs
  | kadd =>
    obtain ⟨j, -, he⟩ | ⟨rs, hrs, he⟩ := kaddEffect_cases s <;> rw [effectOf, he]
    · exact .fault .kadd _ _
    · exact .kadd hrs
  | ktest =>
    obtain ⟨j, -, he⟩ | ⟨rs, hrs, he⟩ := ktestEffect_cases s <;> rw [effectOf, he]
    · exact .fault .ktest _ _
    · exact .ktest hrs

/-- Every outcome of `exec` is one of the relation's. -/
theorem executes_of_exec {i : Instr} {s t : State} (h : exec i s = .next t) : Executes s i t := by
  obtain ⟨hok, rfl⟩ | ⟨c, lane, -, rfl⟩ := exec_cases h
  · exact executes_effectOf (operandFault_eq_none.mp hok)
  · exact .fault i c lane

section Writes

variable {s t : State} {i : Instr}

/-- No command touches the command port, the host's side, the index or the parameters (10_state.md R35, R40). -/
theorem Executes.frame (h : Executes s i t) :
    t.ci = s.ci ∧ t.port = s.port ∧ t.host = s.host ∧ t.delivered = s.delivered ∧ t.cfg = s.cfg := by
  cases h <;> simp

theorem Executes.cfg_eq (h : Executes s i t) : t.cfg = s.cfg := by
  obtain ⟨-, -, -, -, hcfg⟩ := h.frame
  exact hcfg

theorem Executes.op_of_matched_ne (h : Executes s i t) (hne : t.matched ≠ s.matched) :
    i.op = .btest ∨ i.op = .ktest := by
  cases h <;> simp_all [Instr.op]

theorem Executes.op_of_bits_ne (h : Executes s i t) (hne : t.mem.bits ≠ s.mem.bits) :
    i.op = .badd ∨ i.op = .kadd ∨ i.op = .bclear := by
  cases h <;> simp_all [Instr.op]

theorem Executes.op_of_keys_ne (h : Executes s i t) (hne : t.mem.keys ≠ s.mem.keys) : i.op = .kwr := by
  cases h <;> simp_all [Instr.op]

theorem Executes.op_of_tags_ne (h : Executes s i t) (hne : t.tags ≠ s.tags) :
    i.op = .hfinal ∨ i.op = .kadd ∨ i.op = .ktest ∨ i.op = .twr := by
  cases h <;> simp_all [Instr.op]

theorem Executes.op_of_lanes_ne (h : Executes s i t) (hne : t.lanes ≠ s.lanes) :
    i.op = .hinit ∨ i.op = .hdata ∨ i.op = .hfinal ∨ i.op = .kinit ∨ i.op = .kdata ∨ i.op = .kadd
      ∨ i.op = .ktest := by
  cases h <;> simp_all [Instr.op]

/-- The record changes only by a fault, and a fault changes nothing else (60_exceptions.md R172). -/
theorem Executes.record_eq_or_fault (h : Executes s i t) :
    t.record = s.record ∨ ∃ c lane, t = s.takeFault c lane i.op.code := by
  cases h
  case fault c lane => exact .inr ⟨c, lane, rfl⟩
  all_goals exact .inl rfl

/-- A command appends to RESP, at most the words its OP may push (60_exceptions.md R184, R185). -/
theorem Executes.resp_append (h : Executes s i t) :
    ∃ ws, t.resp = s.resp ++ ws ∧ ws.length ≤ mayPush (encode i) := by
  simp only [mayPush, opField_encode, Op.ofCode?_code]
  cases h
  case status => exact ⟨[statusWord s, s.record.fidx], by simp, by simp [Instr.op]⟩
  case hfinal | trd | btest | ktest => exact ⟨[_], rfl, by simp [Instr.op]⟩
  all_goals exact ⟨[], by simp, Nat.zero_le _⟩

/-- The commands that may push (60_exceptions.md R184). -/
theorem op_of_mayPush_ne_zero (h : mayPush (encode i) ≠ 0) :
    i.op = .hfinal ∨ i.op = .trd ∨ i.op = .btest ∨ i.op = .ktest ∨ i.op = .status := by
  simp only [mayPush, opField_encode, Op.ofCode?_code] at h
  cases hop : i.op <;> simp_all

theorem Executes.op_of_resp_ne (h : Executes s i t) (hne : t.resp ≠ s.resp) :
    i.op = .hfinal ∨ i.op = .trd ∨ i.op = .btest ∨ i.op = .ktest ∨ i.op = .status := by
  obtain ⟨ws, hresp, hlen⟩ := h.resp_append
  refine op_of_mayPush_ne_zero fun hzero => hne ?_
  have hws : ws = [] := List.eq_nil_of_length_eq_zero (by omega)
  simpa [hws] using hresp

/-- A write to the key store takes no byte's value away. -/
theorem isSome_readKey_memWrite {ks : List Host.Cell} {x : Nat} (a : Nat) (bytes : List Byte)
    (h : (readKey x ks).isSome = true) : (readKey x (memWrite ks a bytes)).isSome = true := by
  by_cases hx : x < a ∨ a + bytes.length ≤ x
  · rwa [readKey_memWrite_outside bytes ks hx]
  · obtain ⟨j, rfl⟩ := Nat.exists_eq_add_of_le (show a ≤ x by omega)
    have hj : j < bytes.length := by omega
    rw [readKey_memWrite_inside bytes ks hj, List.getElem?_eq_getElem hj, Option.isSome_some]

/-- KVAL is never taken back (10_state.md R28). -/
theorem Executes.readKey_isSome (h : Executes s i t) {a : Nat} (ha : (readKey a s.mem.keys).isSome = true) :
    (readKey a t.mem.keys).isSome = true := by
  cases h
  case kwr => exact isSome_readKey_memWrite _ _ ha
  all_goals exact ha

/-- TV is never taken back (10_state.md R29). -/
theorem Executes.tag_valid (h : Executes s i t) (hlen : s.tags.length = s.cfg.k) {j : Nat} {tag : Word}
    (hj : s.tags[j]? = some (some tag)) : ∃ tag', t.tags[j]? = some (some tag') := by
  have hjk : j < s.tags.length := (List.getElem?_eq_some_iff.mp hj).1
  cases h
  case hfinal | twr =>
    simp only [State.push_tags, State.setTag_tags, State.setLane_tags, List.getElem?_set]
    split
    · simp [hjk, ‹_ = j›]
    · exact ⟨tag, hj⟩
  case kadd rs active | ktest rs active =>
    have hrs : j < rs.length := by rwa [length_of_collect_ok active, ← hlen]
    simp [hrs]
  all_goals exact ⟨tag, hj⟩

end Writes

/-! ### What a command cycle leaves -/

@[simp] theorem assemble_op (op : Op) (w : CmdWord) : (assemble op w).op = op := by cases op <;> rfl

/-- A word that decodes to a command holds that command's OP code (30_encoding.md R77, R78). -/
theorem opField_of_decode {k : Nat} {w : CmdWord} {i : Instr} (h : decode k w = .op i) : opField w = i.op.code := by
  simp only [decode] at h
  split at h
  · cases h
  · rename_i op hop
    split at h
    · cases h
    · split at h
      · cases h
      · cases h
        rw [assemble_op, Op.code_of_ofCode? hop]

/-- What a consumed word leaves before `CI` advances: nothing changed (discarded while halted), the fault of its
decoding, or what its command leaves (30_encoding.md R82). -/
theorem runWord_leaves {w : CmdWord} {s t : State} (h : runWord w s = .next t) :
    ∃ u, t = u.advance
      ∧ (u = s ∨ (∃ c lane, u = s.takeFault c lane (opField w)) ∨ ∃ i, opField w = i.op.code ∧ Executes s i u) := by
  obtain ⟨-, -, rfl⟩ | ⟨-, rfl, u, hu, rfl⟩ | ⟨-, c, lane, -, rfl⟩ | ⟨-, i, u, hd, hu, rfl⟩ := runWord_cases h
  · exact ⟨s, rfl, .inl rfl⟩
  · exact ⟨u, rfl, .inr (.inr ⟨.status, by decide, executes_of_exec hu⟩)⟩
  · exact ⟨_, rfl, .inr (.inl ⟨c, lane, rfl⟩)⟩
  · exact ⟨u, rfl, .inr (.inr ⟨i, opField_of_decode hd, executes_of_exec hu⟩)⟩

/-- A consumed word advances `CI` by one and touches neither port, nor host, nor parameters (10_state.md R35, R40). -/
theorem runWord_frame {w : CmdWord} {s t : State} (h : runWord w s = .next t) :
    t.ci = s.ci + 1 ∧ t.port = s.port ∧ t.cfg = s.cfg := by
  obtain ⟨u, rfl, rfl | ⟨c, lane, rfl⟩ | ⟨i, -, hx⟩⟩ := runWord_leaves h
  · simp
  · simp
  · obtain ⟨hci, hport, -, -, hcfg⟩ := hx.frame
    simp [hci, hport, hcfg]

/-- The engine never changes its parameters. -/
theorem engineStep_cfg {u t : State} (h : engineStep u = .next t) : t.cfg = u.cfg := by
  obtain ⟨-, rfl⟩ | ⟨w, rest, -, ⟨-, rfl⟩ | ⟨-, hrun⟩⟩ := engineStep_cases h
  · rfl
  · rfl
  · obtain ⟨-, -, hcfg⟩ := runWord_frame hrun
    exact hcfg

@[simp] theorem State.readByHost_cfg (s : State) : s.readByHost.cfg = s.cfg := by
  simp only [State.readByHost]; split <;> rfl

@[simp] theorem State.readByHost_ci (s : State) : s.readByHost.ci = s.ci := by
  simp only [State.readByHost]; split <;> rfl

theorem step_cfg {s t : State} (h : step s = .next t) : t.cfg = s.cfg := by
  obtain ⟨u, hturn, he⟩ | ⟨w, ms, -, rfl⟩ | ⟨ms, -, rfl⟩ | ⟨ms, -, rfl⟩ := step_cases h
  · rw [engineStep_cfg he, EngineTurn_eq hturn]
  · simp
  · simp
  · rfl

/-! ### The invariant, part by part -/

/-- The stream is within its depth, bounded or not. -/
theorem resp_within_iff {s : State} :
    s.resp.length ≤ s.cfg.respDepth.getD s.resp.length ↔ ∀ n, s.cfg.respDepth = some n → s.resp.length ≤ n := by
  cases s.cfg.respDepth <;> simp

theorem hasRoom_iff {s : State} {n : Nat} :
    s.hasRoom n = true ↔ ∀ depth, s.cfg.respDepth = some depth → s.resp.length + n ≤ depth := by
  simp only [State.hasRoom]
  split <;> simp [*]

/-- The index of a tag is below M (41_bit_filter.md R120). -/
theorem idx_lt (log2m : Nat) (t : Word) : idx log2m t < 2 ^ log2m := by
  have hand : idx log2m t ≤ (2 ^ log2m - 1) % 2 ^ 32 := by
    rw [idx, BitVec.toNat_and, BitVec.toNat_ofNat]
    exact Nat.and_le_right
  have hmod := Nat.mod_le (2 ^ log2m - 1) (2 ^ 32)
  have hpos := Nat.two_pow_pos log2m
  omega

theorem cause_code_range (c : Cause) : 1 ≤ c.code.toNat ∧ c.code.toNat ≤ 7 := by cases c <;> decide

/-- One written half keeps the key store whole: its four bytes are the half's, and the others are read as before. -/
theorem memoryInv_writeHalf {s : State} (hm : s.MemoryInv) {slot : Nat} (hslot : slot < s.cfg.k) (h : Half)
    (data : Word) :
    (s.setKeys (memWrite s.mem.keys (8 * slot + halfOffset h) (keyBytes data))).MemoryInv := by
  obtain ⟨hwf, hrange, hwhole, hbits⟩ := hm
  have hlen : (keyBytes data).length = 4 := rfl
  have hoff : halfOffset h = 0 ∨ halfOffset h = 4 := by cases h <;> simp [halfOffset]
  refine ⟨Memory.wf_memWrite hwf _ _, fun cell hcell => ?_, fun cell hcell j hj => ?_, hbits⟩
  · obtain hnew | hold := mem_memWrite _ hcell
    · simp only [State.setKeys_cfg]; omega
    · exact hrange cell hold
  · obtain hnew | hold := mem_memWrite _ hcell
    · have hstart : 4 * (cell.1 / 4) = 8 * slot + halfOffset h := by omega
      simp only [State.setKeys_mem]
      rw [hstart, readKey_memWrite_inside _ _ (by omega), List.getElem?_eq_getElem (by omega), Option.isSome_some]
    · exact isSome_readKey_memWrite _ _ (hwhole cell hold j hj)

theorem memoryInv_setTagBits {s : State} (hm : s.MemoryInv) (tags : List Word) :
    (s.setBits (setBitsAt (tags.map (idx s.cfg.log2m)) s.mem.bits)).MemoryInv := by
  obtain ⟨hwf, hrange, hwhole, hbits⟩ := hm
  refine ⟨Memory.wf_setBitsAt hwf _, hrange, hwhole, fun x hx => ?_⟩
  obtain hnew | hold := mem_setBitsAt.mp hx
  · obtain ⟨tag, -, rfl⟩ := List.mem_map.mp hnew
    exact idx_lt _ tag
  · exact hbits x hold

theorem memoryInv_clearBits {s : State} (hm : s.MemoryInv) : (s.setBits []).MemoryInv := by
  obtain ⟨hwf, hrange, hwhole, -⟩ := hm
  exact ⟨Memory.wf_clear hwf, hrange, hwhole, by simp⟩

section Keeps

variable {s t : State} {i : Instr}

theorem Executes.keeps_lane_count (h : Executes s i t) (hs : s.lanes.length = s.cfg.k) :
    t.lanes.length = t.cfg.k := by
  cases h
  case kinit hread | kdata hread | kadd hread | ktest hread => simp [length_of_collect_ok hread]
  all_goals simpa using hs

theorem Executes.keeps_tag_count (h : Executes s i t) (hs : s.tags.length = s.cfg.k) :
    t.tags.length = t.cfg.k := by
  cases h
  case kadd hread | ktest hread => simp [length_of_collect_ok hread]
  all_goals simpa using hs

theorem Executes.keeps_memoryInv (h : Executes s i t) (hs : s.MemoryInv) : t.MemoryInv := by
  cases h
  case badd tags _ => exact memoryInv_setTagBits hs tags
  case kadd rs _ => exact memoryInv_setTagBits (s := s.finalizeAll rs) hs (s.finalTags rs)
  case bclear => exact memoryInv_clearBits hs
  case kwr hslot => exact memoryInv_writeHalf hs hslot _ _
  all_goals exact hs

theorem takeFault_recordInv (s : State) (c : Cause) (lane op : Byte) : (s.takeFault c lane op).RecordInv :=
  .inr ⟨rfl, cause_code_range c⟩

theorem Executes.keeps_recordInv (h : Executes s i t) (hs : s.RecordInv) : t.RecordInv := by
  obtain heq | ⟨c, lane, rfl⟩ := h.record_eq_or_fault
  · unfold State.RecordInv
    rwa [heq]
  · exact takeFault_recordInv s c lane _

/-- RESP stays within its depth when there was room for the words the OP alone may push (60_exceptions.md R185). -/
theorem Executes.keeps_resp_within (h : Executes s i t) (hroom : s.hasRoom (mayPush (encode i)) = true) :
    t.resp.length ≤ t.cfg.respDepth.getD t.resp.length := by
  obtain ⟨ws, hresp, hlen⟩ := h.resp_append
  refine resp_within_iff.mpr fun n hn => ?_
  have := hasRoom_iff.mp hroom n (h.cfg_eq ▸ hn)
  rw [hresp, List.length_append]
  omega

theorem Executes.keeps_inv (h : Executes s i t) (hs : s.Inv) (hroom : s.hasRoom (mayPush (encode i)) = true) :
    t.Inv := by
  obtain ⟨hlanes, htags, hmem, hrec, -⟩ := hs
  exact ⟨h.keeps_lane_count hlanes, h.keeps_tag_count htags, h.keeps_memoryInv hmem, h.keeps_recordInv hrec,
    h.keeps_resp_within hroom⟩

end Keeps

theorem mayPush_congr {w w' : CmdWord} (h : opField w = opField w') : mayPush w = mayPush w' := by
  simp only [mayPush, h]

theorem resetWith_inv (cfg : Config) : (State.resetWith cfg).Inv := by
  refine ⟨by simp [State.resetWith], by simp [State.resetWith], ?_, .inl rfl, Nat.zero_le _⟩
  exact ⟨reset_mem_wf cfg, by simp [State.resetWith], by simp [State.resetWith], by simp [State.resetWith]⟩

/-- A command cycle keeps the invariant, given room for the words its OP may push. -/
theorem runWord_keeps_inv {w : CmdWord} {s t : State} (h : runWord w s = .next t) (hs : s.Inv)
    (hroom : s.hasRoom (mayPush w) = true) : t.Inv := by
  obtain ⟨u, rfl, rfl | ⟨c, lane, rfl⟩ | ⟨i, hop, hx⟩⟩ := runWord_leaves h
  · exact hs
  · obtain ⟨hlanes, htags, hmem, -, hresp⟩ := hs
    exact ⟨hlanes, htags, hmem, takeFault_recordInv s c lane _, hresp⟩
  · rw [mayPush_congr (hop.trans (opField_encode i).symm)] at hroom
    exact hx.keeps_inv hs hroom

theorem engineStep_keeps_inv {u t : State} (h : engineStep u = .next t) (hu : u.Inv) : t.Inv := by
  obtain ⟨-, rfl⟩ | ⟨w, rest, -, ⟨-, rfl⟩ | ⟨hroom, hrun⟩⟩ := engineStep_cases h
  · exact hu
  · exact hu
  · exact runWord_keeps_inv hrun hu hroom

/-- A host's read takes at most one word from RESP and leaves the engine as it is. -/
theorem readByHost_keeps_inv {s : State} (hs : s.Inv) : s.readByHost.Inv := by
  obtain ⟨hlanes, htags, hmem, hrec, hresp⟩ := hs
  simp only [State.readByHost]
  split
  · exact ⟨hlanes, htags, hmem, hrec, hresp⟩
  · rename_i w rest hw
    refine ⟨hlanes, htags, hmem, hrec, resp_within_iff.mpr fun n hn => ?_⟩
    have hle := resp_within_iff.mp hresp n hn
    rw [hw, List.length_cons] at hle
    exact Nat.le_of_succ_le hle

theorem engineTurn_inv {s u : State} (h : s.EngineTurn u) (hs : s.Inv) : u.Inv := by
  rw [EngineTurn_eq h]
  exact hs

theorem step_keeps_inv {s t : State} (hs : s.Inv) (h : step s = .next t) : t.Inv := by
  obtain ⟨u, hturn, he⟩ | ⟨w, ms, -, rfl⟩ | ⟨ms, -, rfl⟩ | ⟨ms, -, rfl⟩ := step_cases h
  · exact engineStep_keeps_inv he (engineTurn_inv hturn hs)
  · exact hs
  · exact readByHost_keeps_inv (s := { s with host := ms }) hs
  · exact resetWith_inv s.cfg

end Sys2Proof.Machine

namespace Sys2Proof.Proofs

open Sys2Proof Sys2Proof.Machine Sys2Proof.Claims

/-- Settles O1: the reset state's fields are the table's (10_state.md R42). -/
theorem resetLeavesTheSpecValues : Obligations.ResetLeavesTheSpecValues := by
  intro cfg s
  have hkeys : ∀ a, readKey a s.mem.keys = none := fun _ => rfl
  refine ⟨⟨List.length_replicate, fun i hi => ?_⟩, hkeys, fun slot h => ?_, ⟨List.length_replicate, fun i hi => ?_⟩,
    bitRead_nil, rfl, rfl, rfl, rfl, rfl, rfl, rfl, rfl⟩
  · exact List.getElem?_replicate_of_lt hi
  · exact Bool.eq_false_iff.mpr fun hk => by simpa [hkeys] using kval_iff.mp hk 0 (by decide)
  · exact List.getElem?_replicate_of_lt hi

/-- Settles O2: `State.reset` is the reset state of one configuration. -/
theorem resetMeetsTheInvariant : Obligations.ResetMeetsTheInvariant :=
  ⟨resetWith_inv, resetWith_inv Config.specExample⟩

/-- Settles O3: the engine's step and each of the host's moves keep every part of the invariant; RESP stays within its
depth because the engine holds a word for which there is no room. -/
theorem everyStepKeepsTheInvariant : Obligations.EveryStepKeepsTheInvariant := fun _ _ => step_keeps_inv

/-- Settles O5: the engine's step, each of the host's moves, reset among them, keep the parameters. -/
theorem noStepChangesTheConfiguration : Obligations.NoStepChangesTheConfiguration := fun _ _ => step_cfg

/-- In the engine's turn `CI` and the port move together: one higher and one word shorter, or as they were. -/
theorem engineTurn_ci {s u t : State} (hturn : s.EngineTurn u) (h : step s = .next t) :
    (∀ w rest, u.port = w :: rest →
        (u.hasRoom (mayPush w) = true → t.ci.toNat = (s.ci.toNat + 1) % 2 ^ 32 ∧ t.port = rest)
          ∧ (u.hasRoom (mayPush w) = false → t = u ∧ t.ci = s.ci))
      ∧ (u.port = [] → t = u ∧ t.ci = s.ci) := by
  have hci : u.ci = s.ci := by rw [EngineTurn_eq hturn]
  rw [step_of_engineTurn hturn] at h
  obtain ⟨hp, rfl⟩ | ⟨w, rest, hp, ⟨hroom, rfl⟩ | ⟨hroom, hrun⟩⟩ := engineStep_cases h
  · simp [hp, hci]
  · refine ⟨fun w' rest' hp' => ?_, fun _ => ⟨rfl, hci⟩⟩
    obtain ⟨rfl, rfl⟩ := List.cons.inj (hp.symm.trans hp')
    simp [hroom, hci]
  · obtain ⟨hci', hport, -⟩ := runWord_frame hrun
    refine ⟨fun w' rest' hp' => ?_, fun hnil => by simp [hp] at hnil⟩
    obtain ⟨rfl, rfl⟩ := List.cons.inj (hp.symm.trans hp')
    simp [hroom, hci', hport, hci, BitVec.toNat_add]

/-- Settles O7: the engine's turn is `engineTurn_ci`; of the host's moves only reset writes `CI`. -/
theorem commandIndexCountsConsumedWords : Obligations.CommandIndexCountsConsumedWords := by
  refine ⟨fun _ => rfl, fun s u t => engineTurn_ci, fun s t m ms hm hwait hreset h => ?_, fun s t ms hm h => ?_⟩
  · obtain ⟨u, ⟨hh, -⟩ | ⟨_, hh, -⟩, -⟩ | ⟨w, ms', -, rfl⟩ | ⟨ms', -, rfl⟩ | ⟨ms', hh, -⟩ := step_cases h
    · simp [hm] at hh
    · exact absurd (List.cons.inj (hm.symm.trans hh)).1 hwait
    · rfl
    · exact State.readByHost_ci _
    · exact absurd (List.cons.inj (hm.symm.trans hh)).1 hreset
  · rw [step, machineStep, hm] at h
    cases h
    rfl

/-- Settles O42: each clause is read off what a command can leave. -/
theorem commandsWriteOnlyTheirState : Obligations.CommandsWriteOnlyTheirState := by
  intro i s t h
  have hx := executes_of_exec h
  obtain ⟨ws, hresp, -⟩ := hx.resp_append
  refine ⟨hx.frame, hx.op_of_matched_ne, hx.op_of_bits_ne, hx.op_of_keys_ne, hx.op_of_tags_ne, hx.op_of_lanes_ne,
    ⟨⟨ws, hresp⟩, hx.op_of_resp_ne⟩, hx.record_eq_or_fault.resolve_left, fun a => hx.readKey_isSome,
    fun hlen j tag => hx.tag_valid hlen⟩

end Sys2Proof.Proofs
end

section
/-! The bit array under BADD (20_memory.md R60, 41_bit_filter.md R123): setting bits that are set changes nothing,
and a fault that leaves the record as it was leaves the state as it was. -/

namespace Sys2Proof.Machine

open Sys2Proof

/-- On a canonical bit array, setting bits that are all set changes nothing. -/
theorem setBitsAt_of_forall_mem {bits : List Nat} (hbits : bits.Pairwise (· < ·)) :
    ∀ {xs : List Nat}, (∀ x ∈ xs, x ∈ bits) → setBitsAt xs bits = bits
  | [], _ => rfl
  | x :: xs, h => by
    obtain ⟨hx, hxs⟩ := List.forall_mem_cons.mp h
    calc setBitsAt (x :: xs) bits
        = setBitsAt xs (insertBit x bits) := rfl
      _ = setBitsAt xs bits := by rw [insertBit_of_mem hbits hx]
      _ = bits := setBitsAt_of_forall_mem hbits hxs

/-- The first pass leaves the array canonical with every bit of the list set, so the second finds nothing to do. -/
theorem setBitsAt_setBitsAt {bits : List Nat} (hbits : bits.Pairwise (· < ·)) (xs : List Nat) :
    setBitsAt xs (setBitsAt xs bits) = setBitsAt xs bits :=
  setBitsAt_of_forall_mem (pairwise_setBitsAt xs bits hbits) fun _ hx => mem_setBitsAt.mpr (.inl hx)

/-- A fault writes the record and nothing else (60_exceptions.md R172). -/
theorem takeFault_eq_self {s : State} {c : Cause} {lane op : Byte}
    (h : (s.takeFault c lane op).record = s.record) : s.takeFault c lane op = s :=
  congrArg (fun r => { s with record := r }) h

/-- BADD with every tag valid (41_bit_filter.md R123). -/
theorem exec_badd_of_valid {s : State} {tags : List Word} (valid : collect s.tagAt s.cfg.k = .ok tags) :
    exec .badd s = .next (s.setBits (setBitsAt (tags.map (idx s.cfg.log2m)) s.mem.bits)) := by
  have heffect : baddEffect s = s.setBits (setBitsAt (tags.map (idx s.cfg.log2m)) s.mem.bits) := by
    rw [baddEffect, valid]
  exact heffect ▸ exec_eq .badd s

end Sys2Proof.Machine

namespace Sys2Proof.Proofs

open Sys2Proof Sys2Proof.Machine Sys2Proof.Claims

/-- Settles O46. A BADD that sets bits leaves the tags, so the second selects the same bits and finds them set. The
premise on the record also admits a fault that writes the record already held: it leaves the state as it was. -/
theorem baddIsIdempotent : Obligations.BaddIsIdempotent := by
  intro s t hwf h hrec
  obtain ⟨-, hbits⟩ := (Memory.wf_iff s.mem).mp hwf
  cases executes_of_exec h with
  | fault =>
    rw [takeFault_eq_self hrec] at h ⊢
    exact h
  | @badd tags valid =>
    have valid' : collect (s.setBits (setBitsAt (tags.map (idx s.cfg.log2m)) s.mem.bits)).tagAt s.cfg.k = .ok tags :=
      valid
    rw [exec_badd_of_valid valid']
    simp [State.setBits, setBitsAt_setBitsAt hbits]

end Sys2Proof.Proofs
end

section
/-! The command encoding (30_encoding.md R70 to R79): the decoder as one chain of checks on the fields of a word, the
encoder as its inverse on well-formed commands, and the opcode map as the ranges of R79. -/

namespace Sys2Proof

open Sys2Proof.Machine (opField_of_decode)

/-! ### The decoder's checks, for all opcodes at once -/

/-- Step 2 of R78 passes: both reserved fields and every field the opcode does not use are zero. -/
theorem reservedSet_eq_false {op : Op} {w : CmdWord} :
    reservedSet op w = false ↔
      rsvAField w = 0 ∧ rsvBField w = 0 ∧ (op.usesLane = false → laneField w = 0)
        ∧ (op.usesH = false → hField w = 0) ∧ (op.usesN = false → nField w = 0)
        ∧ (op.usesData = false → dataField w = 0) := by
  simp [reservedSet, and_assoc]

/-- Steps 3 to 5 of R78 by the field table of R76. -/
theorem operandFault_assemble (k : Nat) (op : Op) (w : CmdWord) :
    operandFault k (assemble op w) =
      if op.usesN && !countLegal (nField w) then some (.badCount, 0)
      else if op.usesN && !chunkClean (nField w) (dataField w) then some (.reservedNonzero, 0)
      else if op.usesLane && !laneInRange k (laneField w) then some (.laneRange, laneField w)
      else none := by
  cases op with
  | hdata =>
    simp only [assemble, operandFault, chunkFault, laneFault, Op.usesN, Op.usesLane, Bool.true_and]
    cases countLegal (nField w) <;> cases chunkClean (nField w) (dataField w) <;>
      cases laneInRange k (laneField w) <;> rfl
  | hinit | hfinal | twr | trd | kwr =>
    simp only [assemble, operandFault, laneFault, Op.usesN, Op.usesLane, Bool.true_and, Bool.false_and]
    cases laneInRange k (laneField w) <;> rfl
  | kdata => simp [assemble, operandFault, chunkFault, Op.usesN, Op.usesLane]
  | _ => rfl

theorem decode_of_ofCode?_none (k : Nat) {w : CmdWord} (h : Op.ofCode? (opField w) = none) :
    decode k w = .fault .illegalOpcode 0 := by
  simp only [decode, h]

/-- The checks after the opcode, in the order of R78. -/
theorem decode_of_ofCode?_some (k : Nat) {w : CmdWord} {op : Op} (h : Op.ofCode? (opField w) = some op) :
    decode k w =
      if reservedSet op w then .fault .reservedNonzero 0
      else if op.usesN && !countLegal (nField w) then .fault .badCount 0
      else if op.usesN && !chunkClean (nField w) (dataField w) then .fault .reservedNonzero 0
      else if op.usesLane && !laneInRange k (laneField w) then .fault .laneRange (laneField w)
      else .op (assemble op w) := by
  simp only [decode, h, operandFault_assemble]
  split_ifs <;> rfl

/-- A word decodes to a command exactly if its OP is the command's, no field that must be zero is set, its fields are
the operands, and the operands are legal. -/
theorem decode_eq_op {k : Nat} {w : CmdWord} {i : Instr} :
    decode k w = .op i ↔
      Op.ofCode? (opField w) = some i.op ∧ reservedSet i.op w = false ∧ assemble i.op w = i ∧ i.WellFormed k := by
  constructor
  · intro h
    have hop : Op.ofCode? (opField w) = some i.op := opField_of_decode h ▸ Op.ofCode?_code i.op
    simp only [decode, hop] at h
    split at h
    · cases h
    · rename_i hres
      split at h
      · cases h
      · rename_i hok
        have hasm : assemble i.op w = i := by simpa using h
        exact ⟨hop, by simpa using hres, hasm, operandFault_eq_none.mp (hasm ▸ hok)⟩
  · rintro ⟨hop, hres, hasm, hwf⟩
    simp [decode, hop, hres, hasm, operandFault_eq_none.mpr hwf]

/-- Only the opcode check answers ILLEGAL_OPCODE. -/
theorem decode_ne_illegalOpcode (k : Nat) {w : CmdWord} {op : Op} (h : Op.ofCode? (opField w) = some op) (lane : Byte) :
    decode k w ≠ .fault .illegalOpcode lane := by
  rw [decode_of_ofCode?_some k h]
  split_ifs <;> simp

/-! ### The encoder as the decoder's inverse -/

theorem reservedSet_encode (i : Instr) : reservedSet i.op (encode i) = false := by
  cases i <;> simp [reservedSet_eq_false, encode, Instr.op, Op.usesLane, Op.usesH, Op.usesN, Op.usesData]

theorem assemble_encode (i : Instr) : assemble i.op (encode i) = i := by
  cases i <;> simp [assemble, encode, Instr.op]

/-- The word of the command that `w`'s fields make: `w`'s fields where the opcode uses them, 0 elsewhere (R76). -/
theorem encode_assemble (op : Op) (w : CmdWord) :
    encode (assemble op w) =
      packFields op.code (if op.usesLane then laneField w else 0) (if op.usesH then hField w else 0)
        (if op.usesN then nField w else 0) (if op.usesData then dataField w else 0) := by
  cases op <;> simp [encode, assemble, Op.code, Op.usesLane, Op.usesH, Op.usesN, Op.usesData, Half.bit_ofBit]

/-- The fields of R70 are the whole word: with the reserved ones zero, packing the others gives it back. -/
theorem packFields_fields {w : CmdWord} (hA : rsvAField w = 0) (hB : rsvBField w = 0) :
    packFields (opField w) (laneField w) (hField w) (nField w) (dataField w) = w := by
  have hA : w.toNat / 2 ^ 44 % 16 = 0 := by rw [← rsvAField_toNat, hA]; rfl
  have hB : w.toNat / 2 ^ 32 % 256 = 0 := by rw [← rsvBField_toNat, hB]; rfl
  apply BitVec.eq_of_toNat_eq
  rw [packFields_toNat, opField_toNat, laneField_toNat, hField_toNat, nField_toNat, dataField_toNat]
  omega

theorem ite_eq_of_unused_zero {n : Nat} {used : Bool} {x : BitVec n} (h : used = false → x = 0) :
    (if used then x else 0) = x := by
  cases used with
  | true => rfl
  | false => exact (h rfl).symm

/-- A word that passes step 2 of R78 is the encoding of the command its fields make. -/
theorem encode_assemble_of_reservedSet {op : Op} {w : CmdWord} (hop : Op.ofCode? (opField w) = some op)
    (hres : reservedSet op w = false) : encode (assemble op w) = w := by
  obtain ⟨hA, hB, hlane, hh, hn, hdata⟩ := reservedSet_eq_false.mp hres
  rw [encode_assemble, Op.code_of_ofCode? hop, ite_eq_of_unused_zero hlane, ite_eq_of_unused_zero hh,
    ite_eq_of_unused_zero hn, ite_eq_of_unused_zero hdata, packFields_fields hA hB]

end Sys2Proof

namespace Sys2Proof.Proofs

open Sys2Proof Sys2Proof.Machine Sys2Proof.Claims

/-- Settles O11: the word of a command passes the opcode and reserved checks, its fields are the command's operands,
and a well-formed command passes the operand checks. -/
theorem decodeInvertsEncode : Obligations.DecodeInvertsEncode := by
  intro k i hwf
  obtain ⟨-, hop⟩ := Laws.OpField.of_encode i
  exact decode_eq_op.mpr ⟨hop, reservedSet_encode i, assemble_encode i, hwf⟩

/-- Settles O12: the decoded command is made of the word's fields, and every other bit was checked to be zero. -/
theorem everyCommandHasOneEncoding : Obligations.EveryCommandHasOneEncoding := by
  intro k w i h
  obtain ⟨hop, hres, hasm, hwf⟩ := decode_eq_op.mp h
  refine ⟨hwf, ?_⟩
  calc encode i = encode (assemble i.op w) := by rw [hasm]
    _ = w := encode_assemble_of_reservedSet hop hres

/-! ### The checks on numbers -/

/-- The table of R76 and R77 is the model's opcode map with its field use. -/
theorem lookup_fieldUse : ∀ b : Byte, fieldUse.lookup b.toNat =
    (Op.ofCode? b).map fun op => (op.usesLane, op.usesH, op.usesN, op.usesData) := by decide

theorem toNat_ne_zero {n : Nat} {x : BitVec n} : x.toNat ≠ 0 ↔ x ≠ 0 := by
  rw [BitVec.toNat_ne, BitVec.ofNat_eq_ofNat, BitVec.toNat_ofNat, Nat.zero_mod]

theorem reservedSet_iff_toNat {op : Op} {w : CmdWord} :
    reservedSet op w = true ↔
      (rsvAField w).toNat ≠ 0 ∨ (rsvBField w).toNat ≠ 0 ∨ (op.usesLane = false ∧ (laneField w).toNat ≠ 0)
        ∨ (op.usesH = false ∧ (hField w).toNat ≠ 0) ∨ (op.usesN = false ∧ (nField w).toNat ≠ 0)
        ∨ (op.usesData = false ∧ (dataField w).toNat ≠ 0) := by
  simp only [toNat_ne_zero]
  simp [reservedSet, or_assoc]

theorem countCheck_iff_toNat {used : Bool} {n : BitVec 3} :
    (used && !countLegal n) = true ↔ used = true ∧ 4 < n.toNat := by
  simp [countLegal]

/-- Nothing stands above a chunk of four bytes (R75). -/
theorem lt_four_of_data_above {n : BitVec 3} {data : Word} (h : data.toNat / 2 ^ (8 * n.toNat) ≠ 0) : n.toNat < 4 := by
  by_contra hn
  have hpow : 2 ^ 32 ≤ 2 ^ (8 * n.toNat) := Nat.pow_le_pow_right (by decide) (by omega)
  exact h (Nat.div_eq_of_lt (data.isLt.trans_le hpow))

theorem chunkCheck_iff_toNat {used : Bool} {n : BitVec 3} {data : Word} :
    (used && !chunkClean n data) = true ↔ used = true ∧ n.toNat < 4 ∧ data.toNat / 2 ^ (8 * n.toNat) ≠ 0 := by
  have hclean : chunkClean n data = false ↔ data.toNat / 2 ^ (8 * n.toNat) ≠ 0 := by
    rw [← Nat.shiftRight_eq_div_pow, ← BitVec.toNat_ushiftRight, toNat_ne_zero]
    simp [chunkClean]
  rw [Bool.and_eq_true, Bool.not_eq_true', hclean, and_iff_right_of_imp lt_four_of_data_above]

theorem laneCheck_iff_toNat {used : Bool} {k : Nat} {lane : Byte} :
    (used && !laneInRange k lane) = true ↔ used = true ∧ k ≤ lane.toNat := by
  simp [laneInRange]

/-- The H operand is the H bit (R73). -/
theorem operands_kwr_ofBit (slot : Byte) (b : BitVec 1) (data : Word) :
    operands (.kwr slot (Half.ofBit b) data) = (slot.toNat, b.toNat, 0, data.toNat) := by
  have hb : b = 0 ∨ b = 1 := by revert b; decide
  obtain rfl | rfl := hb <;> rfl

/-- The operands of the command that `w`'s fields make: those fields where the opcode uses them, 0 elsewhere (R76). -/
theorem operands_assemble (op : Op) (w : CmdWord) :
    operands (assemble op w) =
      ((if op.usesLane then laneField w else 0).toNat, (if op.usesH then hField w else 0).toNat,
        (if op.usesN then nField w else 0).toNat, (if op.usesData then dataField w else 0).toNat) := by
  cases op with
  | kwr => exact operands_kwr_ofBit _ _ _
  | _ => rfl

theorem operands_assemble_of_reservedSet {op : Op} {w : CmdWord} (hres : reservedSet op w = false) :
    operands (assemble op w) =
      ((laneField w).toNat, (hField w).toNat, (nField w).toNat, (dataField w).toNat) := by
  obtain ⟨-, -, hlane, hh, hn, hdata⟩ := reservedSet_eq_false.mp hres
  rw [operands_assemble, ite_eq_of_unused_zero hlane, ite_eq_of_unused_zero hh, ite_eq_of_unused_zero hn,
    ite_eq_of_unused_zero hdata]

/-- Settles O13: each check of the decoder is the rule's check on the field as a number. -/
theorem decodeChecksInOrder : Obligations.DecodeChecksInOrder := by
  intro k w
  simp only [← opField_toNat, ← laneField_toNat, ← rsvAField_toNat, ← hField_toNat, ← nField_toNat, ← rsvBField_toNat,
    ← dataField_toNat, lookup_fieldUse]
  cases hop : Op.ofCode? (opField w) with
  | none => exact decode_of_ofCode?_none k hop
  | some op =>
    simp only [Option.map_some, decode_of_ofCode?_some k hop, ← reservedSet_iff_toNat, ← countCheck_iff_toNat,
      ← chunkCheck_iff_toNat, ← laneCheck_iff_toNat]
    split_ifs with hres
    · rfl
    · rfl
    · rfl
    · rw [BitVec.ofNat_toNat, BitVec.setWidth_eq]
    · refine ⟨assemble op w, rfl, ?_, operands_assemble_of_reservedSet (Bool.eq_false_iff.mpr hres)⟩
      rw [assemble_op, Op.code_of_ofCode? hop]

/-! ### The opcode map -/

/-- The codes without an opcode are the four ranges of R79. -/
theorem ofCode?_eq_none : ∀ b : Byte, Op.ofCode? b = none ↔
    (0x02 ≤ b.toNat ∧ b.toNat ≤ 0x0F) ∨ (0x13 ≤ b.toNat ∧ b.toNat ≤ 0x1F) ∨ (0x25 ≤ b.toNat ∧ b.toNat ≤ 0x2F)
      ∨ 0x35 ≤ b.toNat := by decide

/-- Settles O14: the first check, and no other, answers ILLEGAL_OPCODE. -/
theorem unassignedOpcodesAreIllegal : Obligations.UnassignedOpcodesAreIllegal := by
  intro k w
  simp only [← opField_toNat, ← ofCode?_eq_none]
  refine ⟨decode_of_ofCode?_none k, fun h lane => ?_⟩
  obtain ⟨op, hop⟩ := Option.ne_none_iff_exists'.mp h
  exact decode_ne_illegalOpcode k hop lane

/-! ### The command cycle -/

/-- Settles O6: with room the engine consumes the word, and the command cycle of R82 is `exec`, then `CI + 1`. -/
theorem stepRunsTheDecodedCommand : Obligations.StepRunsTheDecodedCommand := by
  intro s u t w rest i hturn hport hroom hrun hdec hexec
  calc step s = engineStep u := step_of_engineTurn hturn
    _ = runWord w { u with port := rest } := by simp only [engineStep, hport, hroom, if_true]
    _ = completeCycle (exec i { u with port := rest }) := by simp [runWord, hrun, hdec]
    _ = .next { t with ci := t.ci + 1 } := by rw [hexec]; rfl

/-- Settles O15: each of the words is evaluated. -/
theorem sampleWordsDecode : Obligations.SampleWordsDecode := by
  unfold Obligations.SampleWordsDecode
  decide

end Sys2Proof.Proofs
end

section
/-! The lane datapath (40_keyed_stream_hash.md R90, R91, R94): the round on numbers, that it loses nothing, and what
compression and finalization do with it. -/

namespace Sys2Proof.Machine

open Sys2Proof Sys2Proof.Claims

/-! ### The round on numbers -/

theorem rotl32_toNat (x : Word) (r : Nat) : (rotl32 x r).toNat = rotl x.toNat r := by
  have hdiv : x.toNat / 2 ^ (32 - r) < 2 ^ 32 := (Nat.div_le_self _ _).trans_lt x.isLt
  simp only [rotl32, rotl, BitVec.toNat_or, BitVec.toNat_shiftLeft, BitVec.toNat_ushiftRight,
    Nat.shiftLeft_eq, Nat.shiftRight_eq_div_pow, Nat.or_mod_two_pow, Nat.mod_eq_of_lt hdiv]

theorem nums_mixRound (m : Mix) : nums (mixRound m) = roundNums (nums m) := by
  simp only [nums, mixRound, roundNums, add32, BitVec.toNat_add, BitVec.toNat_xor, rotl32_toNat]

/-! ### The round loses nothing -/

/-- Rotating on by what is left of 32 brings every bit back. -/
theorem rotl32_rotl32 (x : Word) {r : Nat} (h : r ≤ 32) : rotl32 (rotl32 x r) (32 - r) = x := by
  refine BitVec.eq_of_getLsbD_eq fun i hi => ?_
  have hr : 32 - (32 - r) = r := by omega
  have hout : x.getLsbD (32 - r + (r + i)) = false := BitVec.getLsbD_of_ge x _ (by omega)
  simp only [rotl32, hr, BitVec.getLsbD_or, BitVec.getLsbD_shiftLeft, BitVec.getLsbD_ushiftRight, hout]
  by_cases hlow : i < 32 - r
  · have hin : r + i < 32 := by omega
    simp [hlow, hin]
  · have hout' : ¬ r + i < 32 := by omega
    have hlt : i - (32 - r) < r := by omega
    have hback : 32 - r + (i - (32 - r)) = i := by omega
    simp [hlow, hout', hlt, hback, hi, show i - (32 - r) < 32 by omega]

theorem rotl32_injective {r : Nat} (h : r ≤ 32) {x y : Word} (heq : rotl32 x r = rotl32 y r) : x = y :=
  calc x = rotl32 (rotl32 x r) (32 - r) := (rotl32_rotl32 x h).symm
    _ = rotl32 (rotl32 y r) (32 - r) := by rw [heq]
    _ = y := rotl32_rotl32 y h

/-- What the round does four times, with other words and another `r`: `x += y`, then `y = rotl(y, r) ^ x`. The two words
it leaves determine the two it read. -/
theorem addRotlXor_injective {r : Nat} (h : r ≤ 32) {x y x' y' : Word} (hsum : x + y = x' + y')
    (hxor : rotl32 y r ^^^ (x + y) = rotl32 y' r ^^^ (x' + y')) : x = x' ∧ y = y' := by
  rw [hsum, BitVec.xor_left_inj] at hxor
  obtain rfl := rotl32_injective h hxor
  exact ⟨(BitVec.add_left_inj _).mp hsum, rfl⟩

/-- The statements of the round undone from the last to the first. -/
theorem mixRound_injective {m m' : Mix} (h : mixRound m = mixRound m') : m = m' := by
  obtain ⟨v0, v1, v2, v3⟩ := m
  obtain ⟨w0, w1, w2, w3⟩ := m'
  simp only [mixRound, Mix.mk.injEq] at h
  obtain ⟨h0, h1, h2, h3⟩ := h
  obtain ⟨hb2, ha1⟩ := addRotlXor_injective (by decide) (rotl32_injective (by decide) h2) h1
  obtain ⟨ha0, hb3⟩ := addRotlXor_injective (by decide) h0 h3
  obtain ⟨rfl, rfl⟩ := addRotlXor_injective (by decide) hb2 hb3
  obtain ⟨rfl, rfl⟩ := addRotlXor_injective (by decide) (rotl32_injective (by decide) ha0) ha1
  rfl

/-! ### Compression and finalization -/

theorem rounds_eq_iterate : ∀ (n : Nat) (m : Mix), rounds n m = mixRound^[n] m
  | 0, _ => rfl
  | n + 1, m => rounds_eq_iterate n (mixRound m)

theorem nums_rounds (n : Nat) (m : Mix) : nums (rounds n m) = roundNums^[n] (nums m) := by
  have hround : Function.Semiconj nums mixRound roundNums := nums_mixRound
  rw [rounds_eq_iterate, hround.iterate_right n]

end Sys2Proof.Machine

namespace Sys2Proof.Proofs

open Sys2Proof Sys2Proof.Machine Sys2Proof.Claims

/-- Settles O16: each operation on words is the one on numbers. -/
theorem roundFollowsItsStatements : Obligations.RoundFollowsItsStatements := nums_mixRound

/-- Settles O17: each statement of the round can be undone. -/
theorem roundIsInjective : Obligations.RoundIsInjective := fun _ _ => mixRound_injective

/-- Settles O52: the rounds on words are the rounds on numbers, and compression adds the two exclusive-ors. -/
theorem compressionIsXorRoundsXor : Obligations.CompressionIsXorRoundsXor := by
  refine ⟨fun c m v => ?_, nums_rounds⟩
  have hstart : (v.v0.toNat, v.v1.toNat, v.v2.toNat, v.v3.toNat ^^^ m.toNat) = nums { v with v3 := v.v3 ^^^ m } := by
    simp only [nums, BitVec.toNat_xor]
  rw [hstart, ← nums_rounds]
  simp only [nums, compress, BitVec.toNat_xor]

end Sys2Proof.Proofs
end

section
/-! Absorption and finalization (40_keyed_stream_hash.md R93, R94, R98): the pending buffer holds what the full blocks
leave over, so absorbing byte by byte is compressing block by block. -/

namespace Sys2Proof.Machine

open Sys2Proof Sys2Proof.Claims

/-! ### The claims' terms are the model's -/

theorem le_eq_le32 (b0 b1 b2 b3 : Byte) : le b0 b1 b2 b3 = le32 b0 b1 b2 b3 := by
  rw [le, ← le32_toNat, BitVec.ofNat_toNat, BitVec.setWidth_eq]

theorem bytesOf_eq_chunk (n : BitVec 3) (data : Word) : bytesOf n data = chunk n data := by
  refine List.map_congr_left fun j _ => BitVec.eq_of_toNat_eq ?_
  rw [byteOf_toNat, BitVec.toNat_ofNat]

/-- `PL` is at most 3 (10_state.md R25). -/
theorem Pending.length_bytes_lt (p : Pending) : p.bytes.length < 4 := by
  rw [Pending.length_bytes]
  exact p.level.isLt

/-- A position at or above `PL` is read as 0 (R94). -/
theorem byte?_getD (p : Pending) (j : Nat) :
    (p.byte? j).getD 0 = if j < p.level.toNat then p.bytes.getD j 0 else 0 := by
  rw [Pending.byte?, ← List.getD_eq_getElem?_getD]
  split
  · rfl
  · exact List.getD_eq_default _ _ (by rw [Pending.length_bytes]; omega)

theorem finalized_eq_finalize (c d : Nat) (r : LaneRegs) : finalized c d r = finalize c d r := by
  simp only [finalized, ← byte?_getD, le_eq_le32]
  rfl

theorem finalTag_eq_tagOf (c d : Nat) (r : LaneRegs) : finalTag c d r = tagOf (finalize c d r) := by
  rw [finalTag, finalized_eq_finalize, tagOf]

/-! ### Blocks -/

/-- Fewer than four bytes make no block. -/
theorem hashBlocks_of_length_lt (c : Nat) (v : Mix) : ∀ {bs : List Byte}, bs.length < 4 → hashBlocks c bs v = (v, bs)
  | [], _ | [_], _ | [_, _], _ | [_, _, _], _ => rfl
  | _ :: _ :: _ :: _ :: _, h => by simp only [List.length_cons] at h; omega

/-- The first four bytes make the first block. -/
theorem hashBlocks_of_four_le (c : Nat) (v : Mix) : ∀ {bs : List Byte}, 4 ≤ bs.length →
    hashBlocks c bs v
      = hashBlocks c (bs.drop 4) (compress c (le32 (bs.getD 0 0) (bs.getD 1 0) (bs.getD 2 0) (bs.getD 3 0)) v)
  | _ :: _ :: _ :: _ :: _, _ => rfl

/-- Absorbing bytes is compressing the full blocks of the bytes in hand: the mixing words are what those blocks give,
and what is left over is pending (R93, R98). -/
theorem absorbAll_blocks (c : Nat) : ∀ (bs : List Byte) (r : LaneRegs),
    ((absorbAll c r bs).v, (absorbAll c r bs).pending.bytes) = hashBlocks c (r.pending.bytes ++ bs) r.v
  | [], r => by
    rw [List.append_nil, hashBlocks_of_length_lt c r.v r.pending.length_bytes_lt, absorbAll_nil]
  | b :: bs, ⟨v, .three b0 b1 b2, bc⟩ => by
    rw [absorbAll_cons, absorb_block, absorbAll_blocks c bs]
    rfl
  | b :: bs, ⟨v, .zero, bc⟩ | b :: bs, ⟨v, .one _, bc⟩ | b :: bs, ⟨v, .two _ _, bc⟩ => by
    rw [absorbAll_cons, absorbAll_blocks c bs]
    rfl

/-- Absorbing a chunk advances the count and completes at most one block (R101). -/
theorem absorbs_absorbAll (c : Nat) (r : LaneRegs) {n : BitVec 3} {data : Word} (h : LegalChunk n data) :
    Claims.Absorbs c r n data (absorbAll c r (chunk n data)) := by
  obtain ⟨hn, -⟩ := h
  have hlevel := r.pending.length_bytes_lt
  have hblocks := absorbAll_blocks c (chunk n data) r
  simp only [Claims.Absorbs, bytesOf_eq_chunk, le_eq_le32]
  refine ⟨by rw [absorbAll_bc, length_chunk], fun hlt => ?_, fun hge => ?_⟩
  · rw [hashBlocks_of_length_lt c r.v hlt] at hblocks
    exact Prod.mk.inj hblocks
  · have hrest : (List.drop 4 (r.pending.bytes ++ chunk n data)).length < 4 := by
      rw [List.length_drop, List.length_append, length_chunk]; omega
    rw [hashBlocks_of_four_le c r.v hge, hashBlocks_of_length_lt c _ hrest] at hblocks
    exact Prod.mk.inj hblocks

/-- The count of a lane that has absorbed `s` since `Init` is the length of `s` modulo 256 (R99). -/
theorem absorbAll_initRegs_bc (c : Nat) (k0 k1 : Word) (s : List Byte) :
    (absorbAll c (initRegs k0 k1) s).bc = BitVec.ofNat 8 (s.length % 256) := by
  refine BitVec.eq_of_toNat_eq ?_
  rw [absorbAll_bc, BitVec.toNat_ofNat, show (initRegs k0 k1).bc.toNat = 0 from rfl]
  omega

/-- The tag of an absorbed stream is `H(key, s)` (R98). -/
theorem tagOf_finalize_absorbAll (c d : Nat) (k0 k1 : Word) (s : List Byte) :
    tagOf (finalize c d (absorbAll c (initRegs k0 k1) s)) = hashTag c d k0 k1 s := by
  have hblocks : ((absorbAll c (initRegs k0 k1) s).v, (absorbAll c (initRegs k0 k1) s).pending.bytes)
      = hashBlocks c s (initRegs k0 k1).v := absorbAll_blocks c s (initRegs k0 k1)
  have hstart : (⟨k0, k1, k0 ^^^ 0x6C796765, k1 ^^^ 0x74656462⟩ : Mix) = (initRegs k0 k1).v := rfl
  simp only [hashTag, hstart, ← hblocks, ← absorbAll_initRegs_bc c k0 k1, List.getD_eq_getElem?_getD]
  rfl

end Sys2Proof.Machine

namespace Sys2Proof.Proofs

open Sys2Proof Sys2Proof.Machine Sys2Proof.Claims

/-- Settles O18: what the byte-wise lane has compressed, and what it holds pending, are the closed form's. -/
theorem streamedTagIsTheClosedForm : Obligations.StreamedTagIsTheClosedForm := fun c d k0 k1 s =>
  (finalTag_eq_tagOf c d _).trans (tagOf_finalize_absorbAll c d k0 k1 s)

end Sys2Proof.Proofs
end

section
/-! The single-lane hash commands (40_keyed_stream_hash.md R95, R97, R100 to R102): what each does when its checks pass,
a stream of HDATA as one fold, the whole hash sequence, and the table of lane transitions. -/

namespace Sys2Proof.Machine

open Sys2Proof Sys2Proof.Claims

/-! ### Commands whose checks pass -/

theorem laneInRange_of_lt {k : Nat} {lane : Byte} (h : lane.toNat < k) : laneInRange k lane = true := by
  simpa [laneInRange] using h

theorem exec_of_wellFormed {i : Instr} {s : State} (h : i.WellFormed s.cfg.k) : exec i s = .next (effectOf i s) :=
  (exec_eq i s).trans (runCommand_of_none (operandFault_eq_none.mpr h))

/-- A legal chunk passes the operand checks of R72 and R75. -/
theorem chunkChecks_of_legalChunk {n : BitVec 3} {data : Word} (h : LegalChunk n data) :
    countLegal n = true ∧ chunkClean n data = true := by
  obtain ⟨hn, hdata⟩ := h
  refine ⟨by simpa [countLegal] using hn, ?_⟩
  rw [chunkClean, beq_iff_eq]
  refine BitVec.eq_of_toNat_eq ?_
  rw [BitVec.toNat_ushiftRight, Nat.shiftRight_eq_div_pow, Nat.div_eq_of_lt hdata]
  rfl

theorem hdata_wellFormed {k : Nat} {lane : Byte} {n : BitVec 3} {data : Word} (hlane : lane.toNat < k)
    (h : LegalChunk n data) : (Instr.hdata lane n data).WellFormed k := by
  obtain ⟨hn, hdata⟩ := chunkChecks_of_legalChunk h
  simp [Instr.WellFormed, Instr.wf, laneInRange_of_lt hlane, hn, hdata]

/-- The key words of a slot whose eight bytes are written (20_memory.md R51, R56). -/
theorem slotWords_of_written {s : State} {slot : Nat} {b : Nat → Byte}
    (h : ∀ j < 8, readKey (8 * slot + j) s.mem.keys = some (b (8 * slot + j))) :
    s.slotWords slot = some (key0 b slot, key1 b slot) :=
  slotWords_eq_some.mpr ⟨fun j => b (8 * slot + j), h, le_eq_le32 .., le_eq_le32 ..⟩

theorem exec_hinit_of_written {s : State} {lane : Byte} {k0 k1 : Word} (hlane : lane.toNat < s.cfg.k)
    (written : s.slotWords lane.toNat = some (k0, k1)) :
    exec (.hinit lane) s = .next (s.setLane lane.toNat (.active (initRegs k0 k1))) := by
  rw [exec_of_wellFormed (i := .hinit lane) (laneInRange_of_lt hlane), effectOf, hinitEffect, written]

theorem exec_hdata_of_active {s : State} {lane : Byte} {n : BitVec 3} {data : Word} {r : LaneRegs}
    (hlane : lane.toNat < s.cfg.k) (legal : LegalChunk n data) (active : s.lanes[lane.toNat]? = some (.active r)) :
    exec (.hdata lane n data) s = .next (s.setLane lane.toNat (.active (absorbAll s.cfg.c r (chunk n data)))) := by
  rw [exec_of_wellFormed (hdata_wellFormed hlane legal), effectOf, hdataEffect, activeLane_eq_some.mpr active]

/-- Lane `i` finalized from the registers `r`, its tag written and pushed (R102). -/
def State.deliverTag (s : State) (i : Nat) (r : LaneRegs) : State :=
  ((s.setLane i (.done (finalized s.cfg.c s.cfg.d r))).setTag i (finalTag s.cfg.c s.cfg.d r)).push
    (finalTag s.cfg.c s.cfg.d r)

theorem exec_hfinal_of_active {s : State} {lane : Byte} {r : LaneRegs} (hlane : lane.toNat < s.cfg.k)
    (active : s.lanes[lane.toNat]? = some (.active r)) :
    exec (.hfinal lane) s = .next (s.deliverTag lane.toNat r) := by
  rw [exec_of_wellFormed (i := .hfinal lane) (laneInRange_of_lt hlane), effectOf, hfinalEffect,
    activeLane_eq_some.mpr active, State.deliverTag, finalTag_eq_tagOf, finalized_eq_finalize]

/-! ### Sequences of words -/

/-- `CI` advanced `n` times (R40): what `n` consumed words add to the effects of their commands. -/
def State.advanceBy (s : State) (n : Nat) : State := { s with ci := s.ci + BitVec.ofNat 32 n }

theorem State.advance_eq_advanceBy (s : State) : s.advance = s.advanceBy 1 := rfl

@[simp] theorem State.advanceBy_zero (s : State) : s.advanceBy 0 = s := by simp [State.advanceBy]

@[simp] theorem State.advanceBy_advanceBy (s : State) (m n : Nat) :
    (s.advanceBy m).advanceBy n = s.advanceBy (m + n) := by
  simp [State.advanceBy, BitVec.ofNat_add, BitVec.add_assoc]

@[simp] theorem State.advanceBy_cfg (s : State) (n : Nat) : (s.advanceBy n).cfg = s.cfg := rfl

/-- The index is no lane's: writing a lane and counting words commute. -/
@[simp] theorem State.advanceBy_setLane (s : State) (n i : Nat) (l : Lane) :
    (s.advanceBy n).setLane i l = (s.setLane i l).advanceBy n := rfl

@[simp] theorem State.advanceBy_deliverTag (s : State) (n i : Nat) (r : LaneRegs) :
    (s.advanceBy n).deliverTag i r = (s.deliverTag i r).advanceBy n := rfl

@[simp] theorem State.setLane_setLane (s : State) (i : Nat) (l l' : Lane) :
    (s.setLane i l).setLane i l' = s.setLane i l' := by
  simp [State.setLane]

@[simp] theorem State.setLane_deliverTag (s : State) (i : Nat) (l : Lane) (r : LaneRegs) :
    (s.setLane i l).deliverTag i r = s.deliverTag i r := by
  simp [State.deliverTag]

/-- Writing a lane with what it holds changes nothing. -/
theorem State.setLane_eq_self {s : State} {i : Nat} {l : Lane} (h : s.lanes[i]? = some l) : s.setLane i l = s := by
  obtain ⟨hlt, rfl⟩ := List.getElem?_eq_some_iff.mp h
  simp [State.setLane]

/-- A command's word runs the command, then advances `CI` (30_encoding.md R82). -/
theorem runWord_encode {i : Instr} {s t : State} (hexec : exec i s = .next t) (running : s.record.halted = false)
    (hwf : i.WellFormed s.cfg.k) : runWord (encode i) s = .next (t.advanceBy 1) := by
  simp [runWord, running, Proofs.decodeInvertsEncode s.cfg.k i hwf, hexec, completeCycle, State.advance_eq_advanceBy]

theorem runWords_cons_of_next {w : CmdWord} {ws : List CmdWord} {s t : State} (h : runWord w s = .next t) :
    runWords (w :: ws) s = runWords ws t := by
  rw [runWords, h]

theorem runWords_append_of_next {ws ws' : List CmdWord} {s t : State} (h : runWords ws s = .next t) :
    runWords (ws ++ ws') s = runWords ws' t := by
  rw [runWords_append, h]

section HashSequence

variable {s : State} {lane : Byte}

/-- On a lane just written ACTIVE with `r`, whatever the words counted so far. -/
theorem runWord_hdata_of_setLane {n : BitVec 3} {data : Word} (running : s.record.halted = false)
    (hlane : lane.toNat < s.cfg.k) (hlt : lane.toNat < s.lanes.length) (legal : LegalChunk n data) (r : LaneRegs)
    (m : Nat) :
    runWord (encode (.hdata lane n data)) ((s.setLane lane.toNat (.active r)).advanceBy m) =
      .next ((s.setLane lane.toNat (.active (absorbAll s.cfg.c r (chunk n data)))).advanceBy (m + 1)) := by
  have hexec := exec_hdata_of_active (s := (s.setLane lane.toNat (.active r)).advanceBy m) hlane legal
    (List.getElem?_set_self hlt)
  simpa using runWord_encode hexec running (hdata_wellFormed hlane legal)

/-- HDATAs on an ACTIVE lane absorb their stream, however it is cut into chunks (R97). -/
theorem runWords_hdataWords (running : s.record.halted = false) (hlane : lane.toNat < s.cfg.k)
    (hlt : lane.toNat < s.lanes.length) : ∀ {cs : List (BitVec 3 × Word)}, LegalChunks cs → ∀ (r : LaneRegs) (m : Nat),
    runWords (hdataWords lane cs) ((s.setLane lane.toNat (.active r)).advanceBy m) =
      .next ((s.setLane lane.toNat (.active (absorbAll s.cfg.c r (streamOf cs)))).advanceBy (m + cs.length))
  | [], _, _, _ => rfl
  | (n, data) :: cs, legal, r, m => by
    obtain ⟨hchunk, hchunks⟩ := List.forall_mem_cons.mp legal
    have hstream : absorbAll s.cfg.c (absorbAll s.cfg.c r (chunk n data)) (streamOf cs)
        = absorbAll s.cfg.c r (streamOf ((n, data) :: cs)) := by
      rw [← absorbAll_append, ← bytesOf_eq_chunk]
      rfl
    have hcount : m + 1 + cs.length = m + ((n, data) :: cs).length := by rw [List.length_cons]; omega
    rw [hdataWords, List.map_cons, runWords_cons_of_next (runWord_hdata_of_setLane running hlane hlt hchunk r m),
      ← hdataWords, runWords_hdataWords running hlane hlt hchunks, hstream, hcount]

/-- HINIT loads the slot's words, the HDATAs absorb the stream, and HFINAL finalizes the lane they leave (R97). -/
theorem runWords_hhashWords {k0 k1 : Word} {cs : List (BitVec 3 × Word)} (running : s.record.halted = false)
    (hlane : lane.toNat < s.cfg.k) (hlt : lane.toNat < s.lanes.length)
    (written : s.slotWords lane.toNat = some (k0, k1)) (legal : LegalChunks cs) :
    runWords (hhashWords lane cs) s =
      .next ((s.deliverTag lane.toNat (absorbAll s.cfg.c (initRegs k0 k1) (streamOf cs))).advanceBy
        (cs.length + 2)) := by
  have hinit := runWord_encode (exec_hinit_of_written hlane written) running (laneInRange_of_lt hlane)
  have hdata := runWords_hdataWords running hlane hlt legal (initRegs k0 k1) 1
  have hfinal := runWord_encode (exec_hfinal_of_active
    (s := (s.setLane lane.toNat (.active (absorbAll s.cfg.c (initRegs k0 k1) (streamOf cs)))).advanceBy (1 + cs.length))
    hlane (List.getElem?_set_self hlt)) running (laneInRange_of_lt hlane)
  have hcount : 1 + cs.length + 1 = cs.length + 2 := by omega
  rw [hhashWords, List.cons_append, runWords_cons_of_next hinit, runWords_append_of_next hdata,
    runWords_cons_of_next hfinal, runWords, State.advanceBy_deliverTag, State.setLane_deliverTag,
    State.advanceBy_advanceBy, hcount]

end HashSequence

/-! ### Lane transitions -/

/-- Writing one lane changes no other lane's status. -/
theorem eq_of_ls_ne_of_set {lanes : List Lane} {i j : Nat} {l l' x : Lane} (hl : lanes[j]? = some l)
    (hl' : (lanes.set i x)[j]? = some l') (hne : l.ls ≠ l'.ls) : i = j ∧ l' = x := by
  rw [List.getElem?_set] at hl'
  split at hl'
  · rename_i hij
    split at hl'
    · exact ⟨hij, (Option.some.inj hl').symm⟩
    · cases hl'
  · exact absurd (congrArg Lane.ls (Option.some.inj (hl.symm.trans hl'))) hne

/-- A K-lane command that passes its state check found lane `j` ACTIVE and writes it from the registers it found. -/
theorem active_of_collect {s : State} {rs : List LaneRegs} (active : collect s.activeLane s.cfg.k = .ok rs)
    {f : LaneRegs → Lane} {j : Nat} {l' : Lane} (hl' : (rs.map f)[j]? = some l') :
    ∃ r, s.lanes[j]? = some (.active r) ∧ l' = f r := by
  obtain ⟨hlen, hread⟩ := collect_ok.mp active
  rw [List.getElem?_map, Option.map_eq_some_iff] at hl'
  obtain ⟨r, hr, rfl⟩ := hl'
  have hj : j < s.cfg.k := hlen ▸ (List.getElem?_eq_some_iff.mp hr).1
  exact ⟨r, activeLane_eq_some.mp ((hread j hj).trans hr), rfl⟩

end Sys2Proof.Machine

namespace Sys2Proof.Proofs

open Sys2Proof Sys2Proof.Machine Sys2Proof.Claims

/-- Settles O23: the slot's words are there, so `Init` loads them. -/
theorem hinitLoadsTheKey : Obligations.HinitLoadsTheKey := fun _ _ _ hlane written =>
  exec_hinit_of_written hlane (slotWords_of_written written)

/-- Settles O24: the lane absorbs the chunk byte by byte, which is what the claim's block view says. -/
theorem hdataAbsorbsTheChunk : Obligations.HdataAbsorbsTheChunk := fun s _ n data r hlane legal active =>
  ⟨absorbAll s.cfg.c r (chunk n data), absorbs_absorbAll s.cfg.c r legal, exec_hdata_of_active hlane legal active⟩

/-- Settles O25: the lane is ACTIVE, so HFINAL finalizes it, writes the tag and pushes it. -/
theorem hfinalDeliversTheTag : Obligations.HfinalDeliversTheTag := fun _ _ _ => exec_hfinal_of_active

/-- Settles O19: both runs fold `Absorb` over the one stream. -/
theorem chunkingDoesNotMatter : Obligations.ChunkingDoesNotMatter := by
  intro s lane r cs cs' running hlane active legal legal' hstream
  obtain ⟨hlt, -⟩ := List.getElem?_eq_some_iff.mp active
  have hrun := runWords_hdataWords running hlane hlt legal r 0
  have hrun' := runWords_hdataWords running hlane hlt legal' r 0
  rw [State.advanceBy_zero, State.setLane_eq_self active] at hrun hrun'
  exact ⟨_, _, hrun, hrun', by rw [hstream]; rfl, List.getElem?_set_self hlt⟩

/-- Settles O20: the sequence delivers the tag of the lane that absorbed the stream, which is the closed form's. -/
theorem hashSequenceDeliversTheTag : Obligations.HashSequenceDeliversTheTag := by
  intro s lane b cs running hlane hlanes _ written legal tag
  have htag : finalTag s.cfg.c s.cfg.d
      (absorbAll s.cfg.c (initRegs (key0 b lane.toNat) (key1 b lane.toNat)) (streamOf cs)) = tag :=
    streamedTagIsTheClosedForm ..
  have hrun := runWords_hhashWords running hlane (hlanes ▸ hlane) (slotWords_of_written written) legal
  rw [State.deliverTag, htag] at hrun
  exact ⟨_, hrun⟩

/-- Settles O43: read off what a command can leave. -/
theorem laneTransitionsAreTheTable : Obligations.LaneTransitionsAreTheTable := by
  intro i s t j l l' h hl hl' hne
  cases executes_of_exec h with
  | hinit =>
    obtain ⟨rfl, rfl⟩ := eq_of_ls_ne_of_set hl hl' hne
    exact .inl ⟨rfl, .inr ⟨_, rfl, rfl⟩⟩
  | hdata _ active =>
    obtain ⟨rfl, rfl⟩ := eq_of_ls_ne_of_set hl hl' hne
    obtain rfl := Option.some.inj ((activeLane_eq_some.mp active).symm.trans hl)
    exact absurd rfl hne
  | hfinal _ active =>
    obtain ⟨rfl, rfl⟩ := eq_of_ls_ne_of_set hl hl' hne
    obtain rfl := Option.some.inj ((activeLane_eq_some.mp active).symm.trans hl)
    exact .inr ⟨rfl, rfl, .inr (.inr ⟨_, rfl, rfl⟩)⟩
  | kinit =>
    obtain ⟨_, -, rfl⟩ := List.mem_map.mp (List.mem_of_getElem? hl')
    exact .inl ⟨rfl, .inl rfl⟩
  | kdata active =>
    obtain ⟨r, hr, rfl⟩ := active_of_collect active hl'
    obtain rfl := Option.some.inj (hr.symm.trans hl)
    exact absurd rfl hne
  | kadd active =>
    rw [State.setBits_lanes, State.finalizeAll_lanes, List.map_map] at hl'
    obtain ⟨r, hr, rfl⟩ := active_of_collect active hl'
    obtain rfl := Option.some.inj (hr.symm.trans hl)
    exact .inr ⟨rfl, rfl, .inl rfl⟩
  | ktest active =>
    rw [State.push_lanes, State.setMatch_lanes, State.finalizeAll_lanes, List.map_map] at hl'
    obtain ⟨r, hr, rfl⟩ := active_of_collect active hl'
    obtain rfl := Option.some.inj (hr.symm.trans hl)
    exact .inr ⟨rfl, rfl, .inr (.inl rfl)⟩
  | _ => exact absurd (congrArg Lane.ls (Option.some.inj (hl.symm.trans hl'))) hne

end Sys2Proof.Proofs
end

section
/-! The bit filter (41_bit_filter.md): the index of a tag, what a command and a command cycle can do to the bit array,
TWR, TRD, BADD, BTEST and BCLEAR when their checks pass, and what every sequence of words keeps of the bits. -/

namespace Sys2Proof.Machine

open Sys2Proof

/-! ### The index of a tag, and the bits a list of tags selects (R120) -/

theorem idx_eq_mod (cfg : Config) (t : Word) : idx cfg.log2m t = t.toNat % cfg.m := by
  have hpow : 2 ^ cfg.log2m ≤ 2 ^ 32 := Nat.pow_le_pow_right (by decide) cfg.log2mBound
  have hmask : 2 ^ cfg.log2m - 1 < 2 ^ 32 := by have := Nat.two_pow_pos cfg.log2m; omega
  rw [idx, BitVec.toNat_and, BitVec.toNat_ofNat, Nat.mod_eq_of_lt hmask, Nat.and_two_pow_sub_one_eq_mod, Config.m]

theorem bitRead_setTagBits {cfg : Config} {tags : List Word} {bits : List Nat} {x : Nat} :
    bitRead (setBitsAt (tags.map (idx cfg.log2m)) bits) x = true ↔
      bitRead bits x = true ∨ ∃ t ∈ tags, x = t.toNat % cfg.m := by
  rw [bitRead_iff_mem, bitRead_iff_mem, mem_setBitsAt, or_comm]
  simp only [List.mem_map, idx_eq_mod, eq_comm]

theorem testResult_iff {cfg : Config} {bits : List Nat} {tags : List Word} :
    testResult cfg.log2m bits tags = true ↔ ∀ t ∈ tags, bitRead bits (t.toNat % cfg.m) = true := by
  simp only [testResult, List.all_eq_true, idx_eq_mod]

/-- An empty array fails the test of K tags, for K is at least 1 (00_scope.md R1). -/
theorem testResult_of_no_bits (cfg : Config) : ∀ {tags : List Word}, tags.length = cfg.k →
    testResult cfg.log2m [] tags = false
  | [], hlen => absurd cfg.kBounds.1 (by simp [← hlen])
  | _ :: _, _ => rfl

/-- Every bit is 0 exactly if no address is listed (log 5). -/
theorem forall_bitRead_false_iff {bits : List Nat} : (∀ x, bitRead bits x = false) ↔ bits = [] := by
  simp only [List.eq_nil_iff_forall_not_mem, ← bitRead_iff_mem, Bool.not_eq_true]

/-! ### Commands whose checks pass -/

theorem exec_twr_of_inRange {s : State} {lane : Byte} (hlane : lane.toNat < s.cfg.k) (data : Word) :
    exec (.twr lane data) s = .next (s.setTag lane.toNat data) :=
  exec_of_wellFormed (i := .twr lane data) (laneInRange_of_lt hlane)

theorem exec_trd_of_valid {s : State} {lane : Byte} {tag : Word} (hlane : lane.toNat < s.cfg.k)
    (valid : s.tags[lane.toNat]? = some (some tag)) : exec (.trd lane) s = .next (s.push tag) := by
  rw [exec_of_wellFormed (i := .trd lane) (laneInRange_of_lt hlane), effectOf, trdEffect, tagAt_eq_some.mpr valid]

theorem exec_btest_of_valid {s : State} {tags : List Word} (valid : collect s.tagAt s.cfg.k = .ok tags) :
    exec .btest s = .next ((s.setMatch (testResult s.cfg.log2m s.mem.bits tags)).push
      (zextBit (testResult s.cfg.log2m s.mem.bits tags))) := by
  rw [exec_of_wellFormed (i := .btest) rfl, effectOf, btestEffect, valid]

theorem exec_bclear (s : State) : exec .bclear s = .next (s.setBits []) := exec_of_wellFormed (i := .bclear) rfl

section ValidTags

variable {s : State} {tag : Nat → Word}

/-- With every tag register valid, the check of BADD and BTEST reads the K tags (60_exceptions.md R174). -/
theorem collect_tagAt_of_valid (valid : ∀ i < s.cfg.k, s.tags[i]? = some (some (tag i))) :
    collect s.tagAt s.cfg.k = .ok ((List.range s.cfg.k).map tag) :=
  collect_ok_of_forall fun i hi => tagAt_eq_some.mpr (valid i hi)

/-- BADD with every tag valid, by the bits it leaves (R123). -/
theorem exec_badd_bits (valid : ∀ i < s.cfg.k, s.tags[i]? = some (some (tag i))) :
    ∃ bits, exec .badd s = .next (s.setBits bits)
      ∧ ∀ x, bitRead bits x = true ↔ bitRead s.mem.bits x = true ∨ ∃ i < s.cfg.k, x = (tag i).toNat % s.cfg.m :=
  ⟨_, exec_badd_of_valid (collect_tagAt_of_valid valid), fun x => by rw [bitRead_setTagBits]; simp⟩

/-- BTEST with every tag valid, by its result (R124). -/
theorem exec_btest_result (valid : ∀ i < s.cfg.k, s.tags[i]? = some (some (tag i))) :
    ∃ r : Bool, (r = true ↔ ∀ i < s.cfg.k, bitRead s.mem.bits ((tag i).toNat % s.cfg.m) = true)
      ∧ exec .btest s = .next ((s.setMatch r).push (zextBit r)) :=
  ⟨_, by simp [testResult_iff], exec_btest_of_valid (collect_tagAt_of_valid valid)⟩

end ValidTags

/-! ### What can happen to the bit array -/

/-- A command leaves the bit array, sets some of its bits (BADD and KADD), or clears it (BCLEAR). -/
theorem Executes.bits_cases {s t : State} {i : Instr} (h : Executes s i t) :
    t.mem.bits = s.mem.bits
      ∨ ((i = .badd ∨ i = .kadd) ∧ ∃ xs, t.mem.bits = setBitsAt xs s.mem.bits)
      ∨ (i = .bclear ∧ t.mem.bits = []) := by
  cases h with
  | badd => exact .inr (.inl ⟨.inl rfl, _, rfl⟩)
  | kadd => exact .inr (.inl ⟨.inr rfl, _, rfl⟩)
  | bclear => exact .inr (.inr ⟨rfl, rfl⟩)
  | _ => exact .inl rfl

/-- On an empty bit array a BTEST or KTEST that does not fault answers 0 (R127). -/
theorem Executes.test_of_no_bits {s t : State} {i : Instr} (h : Executes s i t) (hbits : s.mem.bits = [])
    (hi : i = .btest ∨ i = .ktest) (hok : t.record.halted = false) : t.matched = false ∧ t.resp = s.resp ++ [0] := by
  cases h with
  | fault => cases hok
  | @btest tags valid =>
    have hfail := testResult_of_no_bits s.cfg (length_of_collect_ok valid)
    simp [hbits, hfail, zextBit]
  | @ktest rs active =>
    have hlen : (s.finalTags rs).length = s.cfg.k := by
      rw [State.finalTags, List.length_map, length_of_collect_ok active]
    simp [hbits, testResult_of_no_bits s.cfg hlen, zextBit]
  | _ => simp at hi

section Word

variable {w : CmdWord} {s t : State}

/-- A consumed word leaves the bit array, or does to it what the one command it encodes does (30_encoding.md R75). -/
theorem runWord_bits_cases (h : runWord w s = .next t) :
    t.mem.bits = s.mem.bits
      ∨ ((w = encode .badd ∨ w = encode .kadd) ∧ ∃ xs, t.mem.bits = setBitsAt xs s.mem.bits)
      ∨ (w = encode .bclear ∧ t.mem.bits = []) := by
  obtain ⟨-, -, rfl⟩ | ⟨-, -, u, hu, rfl⟩ | ⟨-, c, lane, -, rfl⟩ | ⟨-, i, u, hd, hu, rfl⟩ := runWord_cases h
  · exact .inl rfl
  · cases executes_of_exec hu <;> exact .inl rfl
  · exact .inl rfl
  · obtain ⟨-, rfl⟩ := Proofs.everyCommandHasOneEncoding _ w i hd
    obtain hsame | ⟨rfl | rfl, hset⟩ | ⟨rfl, hclear⟩ := (executes_of_exec hu).bits_cases
    · exact .inl hsame
    · exact .inr (.inl ⟨.inl rfl, hset⟩)
    · exact .inr (.inl ⟨.inr rfl, hset⟩)
    · exact .inr (.inr ⟨rfl, hclear⟩)

theorem runWord_cfg (h : runWord w s = .next t) : t.cfg = s.cfg := by
  obtain ⟨-, -, hcfg⟩ := runWord_frame h
  exact hcfg

/-- Only BCLEAR's word clears a bit (R128). -/
theorem runWord_keeps_bit (h : runWord w s = .next t) (hw : w ≠ encode .bclear) {x : Nat}
    (hx : bitRead s.mem.bits x = true) : bitRead t.mem.bits x = true := by
  obtain hsame | ⟨-, xs, hset⟩ | ⟨rfl, -⟩ := runWord_bits_cases h
  · rwa [hsame]
  · rw [hset, bitRead_iff_mem, mem_setBitsAt]
    exact .inr (bitRead_iff_mem.mp hx)
  · exact absurd rfl hw

/-- Only the words of BADD and KADD set a bit (R127). -/
theorem runWord_keeps_empty (h : runWord w s = .next t) (hw : w ≠ encode .badd ∧ w ≠ encode .kadd)
    (hs : s.mem.bits = []) : t.mem.bits = [] := by
  obtain ⟨hbadd, hkadd⟩ := hw
  obtain hsame | ⟨rfl | rfl, -⟩ | ⟨-, hclear⟩ := runWord_bits_cases h
  · rwa [hsame]
  · exact absurd rfl hbadd
  · exact absurd rfl hkadd
  · exact hclear

end Word

theorem runWords_cons_cases {w : CmdWord} {ws : List CmdWord} {s t : State} (h : runWords (w :: ws) s = .next t) :
    ∃ u, runWord w s = .next u ∧ runWords ws u = .next t := by
  simp only [runWords] at h
  split at h
  · exact ⟨_, by assumption, h⟩
  · cases h
  · cases h

/-- What every word of a kind `Q` keeps, a sequence of such words keeps. -/
theorem runWords_keeps {P : State → Prop} {Q : CmdWord → Prop}
    (hword : ∀ {w s t}, runWord w s = .next t → Q w → P s → P t) :
    ∀ {ws : List CmdWord} {s t : State}, runWords ws s = .next t → (∀ w ∈ ws, Q w) → P s → P t
  | [], _, _, h, _, hs => by cases h; exact hs
  | w :: ws, _, _, h, hws, hs => by
    obtain ⟨u, hw, hrest⟩ := runWords_cons_cases h
    obtain ⟨hQ, hQs⟩ := List.forall_mem_cons.mp hws
    exact runWords_keeps hword hrest hQs (hword hw hQ hs)

theorem runWords_cfg {ws : List CmdWord} {s t : State} (h : runWords ws s = .next t) : t.cfg = s.cfg :=
  runWords_keeps (P := fun u => u.cfg = s.cfg) (Q := fun _ => True)
    (fun hw _ hu => (runWord_cfg hw).trans hu) h (fun _ _ => trivial) rfl

theorem runWords_keeps_bit {ws : List CmdWord} {s t : State} (h : runWords ws s = .next t)
    (hws : ∀ w ∈ ws, w ≠ encode .bclear) {x : Nat} (hx : bitRead s.mem.bits x = true) :
    bitRead t.mem.bits x = true :=
  runWords_keeps (P := fun u => bitRead u.mem.bits x = true) (fun hw hne => runWord_keeps_bit hw hne) h hws hx

/-! ### Steps -/

/-- The engine clears a bit only if BCLEAR is its front word. -/
theorem engineStep_keeps_bit {u t : State} (h : engineStep u = .next t) {x : Nat}
    (hx : bitRead u.mem.bits x = true) :
    bitRead t.mem.bits x = true ∨ ∃ rest, u.port = encode .bclear :: rest := by
  obtain ⟨-, rfl⟩ | ⟨w, rest, hport, ⟨-, rfl⟩ | ⟨-, hrun⟩⟩ := engineStep_cases h
  · exact .inl hx
  · exact .inl hx
  · by_cases hw : w = encode .bclear
    · exact .inr ⟨rest, hw ▸ hport⟩
    · exact .inl (runWord_keeps_bit hrun hw hx)

@[simp] theorem State.readByHost_mem (s : State) : s.readByHost.mem = s.mem := by
  simp only [State.readByHost]; split <;> rfl

end Sys2Proof.Machine

namespace Sys2Proof.Proofs

open Sys2Proof Sys2Proof.Machine Sys2Proof.Claims

/-- Settles O29: the check reads the K tags, and the bits set are their indices. -/
theorem baddSetsTheTagBits : Obligations.BaddSetsTheTagBits := fun _ _ => exec_badd_bits

/-- Settles O30: the check reads the K tags, and the result is the conjunction over them. -/
theorem btestIsTheConjunction : Obligations.BtestIsTheConjunction := fun _ _ => exec_btest_result

/-- Settles O47: in the engine's turn only BCLEAR's word clears a bit; of the host's moves only reset does. -/
theorem bitArrayOnlyGrows : Obligations.BitArrayOnlyGrows := by
  intro s t x h hx
  obtain ⟨u, hturn, he⟩ | ⟨w, ms, -, rfl⟩ | ⟨ms, -, rfl⟩ | ⟨ms, hhost, -⟩ := step_cases h
  · have hxu : bitRead u.mem.bits x = true := by rwa [EngineTurn_eq hturn]
    obtain hkept | ⟨rest, hport⟩ := engineStep_keeps_bit he hxu
    · exact .inl hkept
    · exact .inr (.inr ⟨u, rest, hturn, hport⟩)
  · exact .inl hx
  · exact .inl (by simpa using hx)
  · exact .inr (.inl ⟨ms, hhost⟩)

/-- Settles O48: BADD leaves every selected bit 1, no word of the sequence clears one, and so BTEST finds them all. -/
theorem addedTagsAlwaysTestTrue : Obligations.AddedTagsAlwaysTestTrue := by
  intro s t u tag ws running valid hadd hws hrun valid'
  obtain ⟨bits, hbadd, hbits⟩ := exec_badd_bits valid
  have ht : t = (s.setBits bits).advanceBy 1 := by
    simpa using hadd.symm.trans (runWord_encode hbadd running rfl)
  have hcfg : u.cfg = s.cfg := by rw [runWords_cfg hrun, ht]; rfl
  have hset : ∀ i < u.cfg.k, bitRead u.mem.bits ((tag i).toNat % u.cfg.m) = true := by
    intro i hi
    rw [hcfg] at hi ⊢
    refine runWords_keeps_bit hrun hws ?_
    rw [ht]
    exact (hbits _).mpr (.inr ⟨i, hi, rfl⟩)
  obtain ⟨r, hr, hbtest⟩ := exec_btest_result (hcfg ▸ valid')
  obtain rfl : r = true := hr.mpr hset
  exact hbtest

/-- Settles O49: an array with no 1 bit stays so until BADD or KADD, and a test of at least one tag fails on it. -/
theorem emptyFilterTestsFalse : Obligations.EmptyFilterTestsFalse := by
  refine ⟨fun _ => bitRead_nil, fun s t h => ?_, fun s t ws hs hws h => ?_, fun t u i ht hi h _ hok => ?_⟩
  · cases (exec_bclear s).symm.trans h
    exact bitRead_nil
  · rw [forall_bitRead_false_iff] at hs ⊢
    exact runWords_keeps (P := fun u => u.mem.bits = []) runWord_keeps_empty h hws hs
  · exact (executes_of_exec h).test_of_no_bits (forall_bitRead_false_iff.mp ht) hi hok

/-- Settles O26: TWR writes the register, which is then valid for TRD. -/
theorem tagRegisterReadsBackWhatWasWritten : Obligations.TagRegisterReadsBackWhatWasWritten := by
  intro s lane data hlane htags
  have hvalid : (s.setTag lane.toNat data).tags[lane.toNat]? = some (some data) :=
    List.getElem?_set_self (htags ▸ hlane)
  exact ⟨_, exec_twr_of_inRange hlane data, rfl, hvalid, exec_trd_of_valid hlane hvalid⟩

/-- Settles O27: the register is valid, so TRD pushes it. -/
theorem trdPushesTheTag : Obligations.TrdPushesTheTag := fun _ _ _ => exec_trd_of_valid

/-- Settles O28: the mask of LOG2M one-bits takes the tag modulo `M`. -/
theorem indexIsTheLowTagBits : Obligations.IndexIsTheLowTagBits := fun cfg t =>
  ⟨idx_eq_mod cfg t, idx_lt cfg.log2m t⟩

/-- Settles O31: BCLEAR leaves no bit listed. -/
theorem bclearClearsEveryBit : Obligations.BclearClearsEveryBit := fun s => ⟨[], exec_bclear s, bitRead_nil⟩

end Sys2Proof.Proofs
end

section
/-! The keyed bit filter (42_keyed_bit_filter.md): KWR, what each K-lane command does when its checks pass, the keyed
sequences as one run from the key store to the tags, and that no other command reads a key. -/

namespace Sys2Proof.Machine

open Sys2Proof Sys2Proof.Claims

/-! ### KWR (R141) -/

theorem exec_kwr_of_inRange {s : State} {slot : Byte} (hslot : slot.toNat < s.cfg.k) (h : Half) (data : Word) :
    exec (.kwr slot h data) s =
      .next (s.setKeys (memWrite s.mem.keys (8 * slot.toNat + halfOffset h) (keyBytes data))) :=
  exec_of_wellFormed (i := .kwr slot h data) (laneInRange_of_lt hslot)

/-- The key bytes of a KWR are its DATA, least significant first (30_encoding.md R74). -/
theorem getElem?_keyBytes (data : Word) {j : Nat} (hj : j < 4) :
    (keyBytes data)[j]? = some (BitVec.ofNat 8 (data.toNat / 2 ^ (8 * j))) := by
  have hbyte : byteOf data j = BitVec.ofNat 8 (data.toNat / 2 ^ (8 * j)) :=
    BitVec.eq_of_toNat_eq (by rw [byteOf_toNat, BitVec.toNat_ofNat])
  have hlist : keyBytes data = (List.range 4).map (byteOf data) := rfl
  simp [hlist, hj, hbyte]

theorem readKey_keyBytes_inside (ks : List Host.Cell) (a : Nat) (data : Word) {j : Nat} (hj : j < 4) :
    readKey (a + j) (memWrite ks a (keyBytes data)) = some (BitVec.ofNat 8 (data.toNat / 2 ^ (8 * j))) := by
  rw [readKey_memWrite_inside (keyBytes data) ks hj, getElem?_keyBytes data hj]

/-! ### Every lane at once -/

/-- Every lane written ACTIVE, lane `i` with the registers `r i`. -/
def State.setActive (s : State) (r : Nat → LaneRegs) : State :=
  s.setLanes ((List.range s.cfg.k).map fun i => .active (r i))

/-- Every lane `i` finalized from the registers `r i` and every tag register written with its lane's tag: what KADD and
KTEST do before they touch the bits (R144, R145). -/
def State.setDone (s : State) (r : Nat → LaneRegs) : State :=
  { s with
    lanes := (List.range s.cfg.k).map fun i => .done (finalized s.cfg.c s.cfg.d (r i))
    tags := (List.range s.cfg.k).map fun i => some (finalTag s.cfg.c s.cfg.d (r i)) }

theorem State.getElem?_lanes_setActive (s : State) (r : Nat → LaneRegs) {i : Nat} (hi : i < s.cfg.k) :
    (s.setActive r).lanes[i]? = some (.active (r i)) := by
  simp [State.setActive, hi]

@[simp] theorem State.setActive_cfg (s : State) (r : Nat → LaneRegs) : (s.setActive r).cfg = s.cfg := rfl

@[simp] theorem State.setActive_setActive (s : State) (r r' : Nat → LaneRegs) :
    (s.setActive r).setActive r' = s.setActive r' := rfl

@[simp] theorem State.setActive_advanceBy (s : State) (n : Nat) (r : Nat → LaneRegs) :
    (s.advanceBy n).setActive r = (s.setActive r).advanceBy n := rfl

theorem State.finalizeAll_range (s : State) (r : Nat → LaneRegs) :
    s.finalizeAll ((List.range s.cfg.k).map r) = s.setDone r := by
  simp [State.finalizeAll, State.setDone, State.setLanes, State.setTags, finalized_eq_finalize, finalTag_eq_tagOf]

/-- The tags of K lanes finalized from the registers `r i`, by lane. -/
def State.newTags (s : State) (r : Nat → LaneRegs) : List Word :=
  (List.range s.cfg.k).map fun i => finalTag s.cfg.c s.cfg.d (r i)

theorem State.finalTags_range (s : State) (r : Nat → LaneRegs) :
    s.finalTags ((List.range s.cfg.k).map r) = s.newTags r := by
  simp [State.finalTags, State.newTags, finalTag_eq_tagOf]

/-! ### K-lane commands whose checks pass -/

/-- With every byte of every slot written, the check of KINIT reads the key words of the K slots (R142). -/
theorem collect_slotWords_of_keysAre {s : State} {b : Nat → Byte} (written : KeysAre s b) :
    collect s.slotWords s.cfg.k = .ok ((List.range s.cfg.k).map fun i => (key0 b i, key1 b i)) :=
  collect_ok_of_forall fun i hi => slotWords_of_written fun j hj => written (8 * i + j) (by omega)

theorem exec_kinit_of_keysAre {s : State} {b : Nat → Byte} (written : KeysAre s b) :
    exec .kinit s = .next (s.setActive fun i => initRegs (key0 b i) (key1 b i)) := by
  rw [exec_of_wellFormed (i := .kinit) rfl, effectOf, kinitEffect, collect_slotWords_of_keysAre written]
  simp [State.setActive, Function.comp_def]

theorem kdata_wellFormed (k : Nat) {n : BitVec 3} {data : Word} (h : LegalChunk n data) :
    (Instr.kdata n data).WellFormed k := by
  obtain ⟨hn, hdata⟩ := chunkChecks_of_legalChunk h
  simp [Instr.WellFormed, Instr.wf, hn, hdata]

section ActiveLanes

variable {s : State} {r : Nat → LaneRegs} (active : ∀ i < s.cfg.k, s.lanes[i]? = some (.active (r i)))

include active

/-- With every lane ACTIVE, the check of KDATA, KADD and KTEST reads the K lanes (60_exceptions.md R174). -/
theorem collect_activeLane_of_active : collect s.activeLane s.cfg.k = .ok ((List.range s.cfg.k).map r) :=
  collect_ok_of_forall fun i hi => activeLane_eq_some.mpr (active i hi)

theorem exec_kdata_of_active {n : BitVec 3} {data : Word} (legal : LegalChunk n data) :
    exec (.kdata n data) s = .next (s.setActive fun i => absorbAll s.cfg.c (r i) (chunk n data)) := by
  rw [exec_of_wellFormed (kdata_wellFormed s.cfg.k legal), effectOf, kdataEffect, collect_activeLane_of_active active]
  simp [State.setActive, Function.comp_def]

theorem exec_kadd_of_active :
    exec .kadd s =
      .next ((s.setDone r).setBits (setBitsAt ((s.newTags r).map (idx s.cfg.log2m)) s.mem.bits)) := by
  rw [exec_of_wellFormed (i := .kadd) rfl, effectOf, kaddEffect, collect_activeLane_of_active active]
  simp only [State.finalizeAll_range, State.finalTags_range]

theorem exec_ktest_of_active :
    exec .ktest s = .next (((s.setDone r).setMatch (testResult s.cfg.log2m s.mem.bits (s.newTags r))).push
      (zextBit (testResult s.cfg.log2m s.mem.bits (s.newTags r)))) := by
  rw [exec_of_wellFormed (i := .ktest) rfl, effectOf, ktestEffect, collect_activeLane_of_active active]
  simp only [State.finalizeAll_range, State.finalTags_range]

/-- KADD by the bits it leaves (R144). -/
theorem exec_kadd_bits :
    ∃ bits, exec .kadd s = .next ((s.setDone r).setBits bits)
      ∧ ∀ x, bitRead bits x = true ↔
          bitRead s.mem.bits x = true ∨ ∃ i < s.cfg.k, x = (finalTag s.cfg.c s.cfg.d (r i)).toNat % s.cfg.m :=
  ⟨_, exec_kadd_of_active active, fun x => by rw [bitRead_setTagBits]; simp [State.newTags]⟩

/-- KTEST by its result (R145). -/
theorem exec_ktest_result :
    ∃ b : Bool,
      (b = true ↔ ∀ i < s.cfg.k, bitRead s.mem.bits ((finalTag s.cfg.c s.cfg.d (r i)).toNat % s.cfg.m) = true)
        ∧ exec .ktest s = .next (((s.setDone r).setMatch b).push (zextBit b)) :=
  ⟨_, by simp [testResult_iff, State.newTags], exec_ktest_of_active active⟩

end ActiveLanes

/-! ### The keyed sequences (R146) -/

section KeyedSequence

variable {s : State}

/-- On lanes just written ACTIVE with the registers `r`, whatever the words counted so far. -/
theorem runWord_kdata_of_setActive {n : BitVec 3} {data : Word} (running : s.record.halted = false)
    (legal : LegalChunk n data) (r : Nat → LaneRegs) (m : Nat) :
    runWord (encode (.kdata n data)) ((s.setActive r).advanceBy m) =
      .next ((s.setActive fun i => absorbAll s.cfg.c (r i) (chunk n data)).advanceBy (m + 1)) := by
  have hexec := exec_kdata_of_active (s := (s.setActive r).advanceBy m) (fun _ => s.getElem?_lanes_setActive r) legal
  simpa using runWord_encode hexec running (kdata_wellFormed s.cfg.k legal)

/-- KDATAs absorb their stream into every lane, however it is cut into chunks (R97, R143). -/
theorem runWords_kdata (running : s.record.halted = false) :
    ∀ {cs : List (BitVec 3 × Word)}, LegalChunks cs → ∀ (r : Nat → LaneRegs) (m : Nat),
    runWords (cs.map fun p => encode (.kdata p.1 p.2)) ((s.setActive r).advanceBy m) =
      .next ((s.setActive fun i => absorbAll s.cfg.c (r i) (streamOf cs)).advanceBy (m + cs.length))
  | [], _, _, _ => rfl
  | (n, data) :: cs, legal, r, m => by
    obtain ⟨hchunk, hchunks⟩ := List.forall_mem_cons.mp legal
    have hstream : streamOf ((n, data) :: cs) = chunk n data ++ streamOf cs := by rw [← bytesOf_eq_chunk]; rfl
    have hcount : m + 1 + cs.length = m + ((n, data) :: cs).length := by rw [List.length_cons]; omega
    rw [List.map_cons, runWords_cons_of_next (runWord_kdata_of_setActive running hchunk r m),
      runWords_kdata running hchunks, hstream, hcount]
    simp only [absorbAll_append]

/-- The registers of lane `i` after KINIT with the key bytes `b` and KDATAs of the stream `input`. -/
def keyedRegs (c : Nat) (b : Nat → Byte) (input : List Byte) (i : Nat) : LaneRegs :=
  absorbAll c (initRegs (key0 b i) (key1 b i)) input

/-- The tag of lane `i` is `H(slot i, input)` (R146). -/
theorem finalTag_keyedRegs (c d : Nat) (b : Nat → Byte) (input : List Byte) (i : Nat) :
    finalTag c d (keyedRegs c b input i) = hashTag c d (key0 b i) (key1 b i) input := by
  rw [finalTag_eq_tagOf, keyedRegs, tagOf_finalize_absorbAll]

/-- `s` with every lane ACTIVE, its slot's key and the stream of `cs` absorbed, and the words of KINIT and KDATAs
counted. -/
def State.keyedStream (s : State) (b : Nat → Byte) (cs : List (BitVec 3 × Word)) : State :=
  (s.setActive (keyedRegs s.cfg.c b (streamOf cs))).advanceBy (1 + cs.length)

theorem State.keyedStream_lanes (s : State) (b : Nat → Byte) (cs : List (BitVec 3 × Word)) :
    ∀ i < s.cfg.k, (s.keyedStream b cs).lanes[i]? = some (.active (keyedRegs s.cfg.c b (streamOf cs) i)) :=
  fun _ => s.getElem?_lanes_setActive _

/-- KINIT loads every lane from its slot, and the KDATAs absorb the stream (R142, R143). -/
theorem runWords_kstreamWords {b : Nat → Byte} {cs : List (BitVec 3 × Word)} (running : s.record.halted = false)
    (written : KeysAre s b) (legal : LegalChunks cs) : runWords (kstreamWords cs) s = .next (s.keyedStream b cs) := by
  have hinit := runWord_encode (exec_kinit_of_keysAre written) running rfl
  rw [kstreamWords, runWords_cons_of_next hinit, runWords_kdata running legal]
  rfl

/-- A keyed sequence ends as its last command does on the streamed lanes. -/
theorem runWords_kstreamWords_append {b : Nat → Byte} {cs : List (BitVec 3 × Word)} {i : Instr} {t : State}
    (running : s.record.halted = false) (written : KeysAre s b) (legal : LegalChunks cs) (hwf : i.WellFormed s.cfg.k)
    (hexec : exec i (s.keyedStream b cs) = .next t) :
    runWords (kstreamWords cs ++ [encode i]) s = .next (t.advanceBy 1) := by
  rw [runWords_append_of_next (runWords_kstreamWords running written legal),
    runWords_cons_of_next (runWord_encode hexec running hwf), runWords]

end KeyedSequence

/-! ### Which commands read the keys (R148) -/

/-- No effect but that of the initializations and of KWR reads or writes the key store. -/
theorem effectOf_setKeys {i : Instr} (hhinit : i.op ≠ .hinit) (hkinit : i.op ≠ .kinit) (hkwr : i.op ≠ .kwr)
    (s : State) (keys : List Host.Cell) : effectOf i (s.setKeys keys) = (effectOf i s).setKeys keys := by
  have hactive : (s.setKeys keys).activeLane = s.activeLane := rfl
  have htag : (s.setKeys keys).tagAt = s.tagAt := rfl
  cases i with
  | hinit => exact absurd rfl hhinit
  | kinit => exact absurd rfl hkinit
  | kwr => exact absurd rfl hkwr
  | nop | status | twr | bclear => rfl
  | hdata lane | hfinal lane =>
    simp only [effectOf, hdataEffect, hfinalEffect, hactive]
    cases s.activeLane lane.toNat <;> rfl
  | trd lane =>
    simp only [effectOf, trdEffect, htag]
    cases s.tagAt lane.toNat <;> rfl
  | badd | btest =>
    simp only [effectOf, baddEffect, btestEffect, htag, State.setKeys_cfg]
    cases collect s.tagAt s.cfg.k <;> rfl
  | kdata | kadd | ktest =>
    simp only [effectOf, kdataEffect, kaddEffect, ktestEffect, hactive, State.setKeys_cfg]
    cases collect s.activeLane s.cfg.k <;> rfl

end Sys2Proof.Machine

namespace Sys2Proof.Proofs

open Sys2Proof Sys2Proof.Machine Sys2Proof.Claims

/-- Settles O32: the four bytes are written in a row from the half's start, which makes the half's KVAL 1. -/
theorem kwrWritesOneHalf : Obligations.KwrWritesOneHalf := by
  intro s slot h data hslot start
  have hstart : start = 8 * slot.toNat + halfOffset h := by cases h <;> rfl
  rw [hstart]
  have hinside := fun j hj => readKey_keyBytes_inside s.mem.keys (8 * slot.toNat + halfOffset h) data (j := j) hj
  refine ⟨_, exec_kwr_of_inRange hslot h data, rfl, hinside, fun a => ?_, kval_iff.mpr fun j hj => ?_⟩
  · exact readKey_memWrite_outside (keyBytes data) s.mem.keys
  · exact Option.isSome_iff_exists.mpr ⟨_, hinside j hj⟩

/-- Settles O33: every slot's words are there, so `Init` loads every lane. -/
theorem kinitLoadsEveryLane : Obligations.KinitLoadsEveryLane := fun _ _ => exec_kinit_of_keysAre

/-- Settles O34: each lane absorbs the chunk as HDATA would. -/
theorem kdataAbsorbsIntoEveryLane : Obligations.KdataAbsorbsIntoEveryLane := fun s n data r legal active =>
  ⟨fun i => absorbAll s.cfg.c (r i) (chunk n data), fun i _ => absorbs_absorbAll s.cfg.c (r i) legal,
    exec_kdata_of_active active legal⟩

/-- Settles O35: the check reads the K lanes, and the bits set are the indices of their tags. -/
theorem kaddAddsTheTags : Obligations.KaddAddsTheTags := fun _ _ => exec_kadd_bits

/-- Settles O36: the check reads the K lanes, and the result is the conjunction over their tags. -/
theorem ktestTestsTheTags : Obligations.KtestTestsTheTags := fun _ _ => exec_ktest_result

/-- Settles O45: neither the operand checks nor the effect of such a command read the keys. -/
theorem keysAreReadOnlyByInit : Obligations.KeysAreReadOnlyByInit := by
  intro i s t keys hhinit hkinit hkwr h
  change exec i (s.setKeys keys) = .next (t.setKeys keys)
  rw [exec_eq]
  obtain ⟨hok, rfl⟩ | ⟨c, lane, hfault, rfl⟩ := exec_cases h
  · rw [runCommand_of_none (s := s.setKeys keys) hok, effectOf_setKeys hhinit hkinit hkwr]
  · exact runCommand_of_some (s := s.setKeys keys) hfault

/-- Settles O50: KADD or KTEST finds every lane ACTIVE with the stream absorbed, so its tags are `H(slot i, input)`. -/
theorem keyedSequencesAddAndTest : Obligations.KeyedSequencesAddAndTest := by
  intro s b cs running written legal index
  have hindex : ∀ i, index i = (finalTag s.cfg.c s.cfg.d (keyedRegs s.cfg.c b (streamOf cs) i)).toNat % s.cfg.m :=
    fun i => by rw [finalTag_keyedRegs]
  obtain ⟨bits, hkadd, hbits⟩ := exec_kadd_bits (s := s.keyedStream b cs) (s.keyedStream_lanes b cs)
  obtain ⟨r, hr, hktest⟩ := exec_ktest_result (s := s.keyedStream b cs) (s.keyedStream_lanes b cs)
  simp only [hindex]
  exact ⟨⟨_, runWords_kstreamWords_append running written legal rfl hkadd, rfl, rfl, hbits⟩,
    _, r, runWords_kstreamWords_append running written legal rfl hktest, rfl, rfl, hr, rfl, rfl⟩

/-- Settles O51: the KADD sequence leaves every bit of the input's tags 1, no word in between clears one, and the KTEST
sequence derives the same tags from the same key bytes. -/
theorem addedInputsAlwaysTestTrue : Obligations.AddedInputsAlwaysTestTrue := by
  intro s t u b cs cs' ws running written legal legal' hstream hadd hws hrun running' written'
  have hcfg : u.cfg = s.cfg := (runWords_cfg hrun).trans (runWords_cfg hadd)
  obtain ⟨⟨t', hadd', -, -, hbits⟩, -⟩ := keyedSequencesAddAndTest s b cs running written legal
  obtain rfl : t = t' := by simpa using hadd.symm.trans hadd'
  obtain ⟨-, v, r, htest, -, -, hr, hmatched, hresp⟩ := keyedSequencesAddAndTest u b cs' running' written' legal'
  obtain rfl : r = true := by
    refine hr.mpr fun i hi => runWords_keeps_bit hrun hws ((hbits _).mpr (.inr ⟨i, hcfg ▸ hi, ?_⟩))
    rw [hcfg, hstream]
  exact ⟨v, htest, hmatched, hresp⟩

end Sys2Proof.Proofs
end

section
/-! The system commands (43_system.md): a word with OP 0 decoded, what a command cycle does with a consumed word by the
halted state and the word's decoding, and the layout of the status word. -/

namespace Sys2Proof

/-- The word of NOP (43_system.md R160). -/
theorem encode_nop : encode .nop = 0 := by decide

/-- A word below `2^56` has the OP field of NOP. -/
theorem opField_of_lt {w : CmdWord} (h : w.toNat < 2 ^ 56) : opField w = 0 :=
  BitVec.eq_of_toNat_eq (by rw [opField_toNat, Nat.div_eq_of_lt h]; rfl)

/-- NOP uses no field, so step 2 of R78 passes the all-zero word only. -/
theorem reservedSet_nop_of_ne_zero {w : CmdWord} (hop : opField w = 0) (hw : w ≠ 0) : reservedSet .nop w = true := by
  by_contra hres
  have hzero : encode .nop = w :=
    encode_assemble_of_reservedSet (op := .nop) (hop ▸ rfl) (Bool.eq_false_iff.mpr hres)
  exact hw (hzero.symm.trans encode_nop)

theorem decode_of_opField_zero (k : Nat) {w : CmdWord} (hop : opField w = 0) (hw : w ≠ 0) :
    decode k w = .fault .reservedNonzero 0 := by
  rw [decode_of_ofCode?_some k (op := .nop) (hop ▸ rfl), reservedSet_nop_of_ne_zero hop hw, if_pos rfl]

end Sys2Proof

namespace Sys2Proof.Machine

open Sys2Proof

/-! ### The command cycle of a consumed word -/

/-- In its turn, with a word presented and room, the engine consumes the word (30_encoding.md R82). -/
theorem step_of_consumed {s u : State} {w : CmdWord} {rest : List CmdWord} (hturn : s.EngineTurn u)
    (hport : u.port = w :: rest) (hroom : u.hasRoom (mayPush w) = true) :
    step s = runWord w { u with port := rest } := by
  rw [step_of_engineTurn hturn, engineStep, hport]
  exact if_pos hroom

/-- A halted engine discards every word but STATUS (60_exceptions.md R175). -/
theorem runWord_of_halted {w : CmdWord} {s : State} (halted : s.record.halted = true) (hw : w ≠ statusCommand) :
    runWord w s = .next s.advance := by
  rw [runWord, if_pos halted, if_neg hw]

/-- A running engine takes the fault of a word's decoding (30_encoding.md R82, 60_exceptions.md R172). -/
theorem runWord_of_decode_fault {w : CmdWord} {s : State} {c : Cause} {lane : Byte}
    (running : s.record.halted = false) (hdec : decode s.cfg.k w = .fault c lane) :
    runWord w s = .next (s.takeFault c lane (opField w)).advance := by
  simp only [runWord, running, hdec, Bool.false_eq_true, if_false]

theorem exec_nop (s : State) : exec .nop s = .next s := exec_of_wellFormed (i := .nop) rfl

theorem exec_status (s : State) : exec .status s = .next ((s.push (statusWord s)).push s.record.fidx) :=
  exec_of_wellFormed (i := .status) rfl

/-- What a consumed word with OP 0 does: nothing but the index if it is NOP or the engine is halted, else the fault of
its nonzero bits (43_system.md R160). -/
theorem runWord_of_opField_zero {w : CmdWord} {s : State} (hop : opField w = 0) :
    runWord w s = .next
      (if w = 0 ∨ s.record.halted = true then s.advance else (s.takeFault .reservedNonzero 0 0).advance) := by
  cases hrun : s.record.halted with
  | true =>
    have hw : w ≠ statusCommand := fun h => absurd (h ▸ hop) (by decide)
    rw [runWord_of_halted hrun hw, if_pos (.inr rfl)]
  | false =>
    by_cases hw : w = 0
    · subst hw
      rw [if_pos (.inl rfl), ← encode_nop]
      exact runWord_encode (exec_nop s) hrun rfl
    · rw [runWord_of_decode_fault hrun (decode_of_opField_zero _ hop hw), hop,
        if_neg (not_or.mpr ⟨hw, Bool.false_ne_true⟩)]

/-! ### The status word -/

@[simp] theorem zextBit_toNat (b : Bool) : (zextBit b).toNat = b.toNat := by cases b <;> rfl

/-- A field put above `i` low bits that are within their width is added to them. -/
theorem shiftLeft_or_toNat {x y : Word} {i a b : Nat} (hx : x.toNat = a) (hy : y.toNat = b) (hhigh : a * 2 ^ i < 2 ^ 32)
    (hlow : b < 2 ^ i) : (x <<< i ||| y).toNat = a * 2 ^ i + b := by
  rw [BitVec.toNat_or, BitVec.toNat_shiftLeft, hx, hy, Nat.shiftLeft_eq, Nat.mod_eq_of_lt hhigh, ← Nat.shiftLeft_eq,
    Nat.shiftLeft_add_eq_or_of_lt hlow]

/-- The status word as a number: its fields at the bit positions of 10_state.md R33, which no two share. It is put
together from the low end up. -/
theorem statusWord_toNat (s : State) : (statusWord s).toNat =
    s.record.fop.toNat * 2 ^ 16 + (s.record.flane.toNat * 2 ^ 8 + (s.matched.toNat * 2 ^ 5
      + (s.record.cause.toNat * 2 ^ 1 + s.record.halted.toNat))) := by
  have hmatched := s.matched.toNat_lt
  have hhalted := s.record.halted.toNat_lt
  have hcauseUp := shiftLeft_or_toNat (i := 1) (BitVec.toNat_setWidth_of_le (b := s.record.cause) (by decide))
    (zextBit_toNat s.record.halted) (by omega) (by omega)
  have hmatchUp := shiftLeft_or_toNat (i := 5) (zextBit_toNat s.matched) hcauseUp (by omega) (by omega)
  have hflaneUp := shiftLeft_or_toNat (i := 8) (BitVec.toNat_setWidth_of_le (b := s.record.flane) (by decide)) hmatchUp
    (by omega) (by omega)
  rw [statusWord, BitVec.or_assoc, BitVec.or_assoc, BitVec.or_assoc]
  exact shiftLeft_or_toNat (BitVec.toNat_setWidth_of_le (by decide)) hflaneUp (by omega) (by omega)

end Sys2Proof.Machine

namespace Sys2Proof.Proofs

open Sys2Proof Sys2Proof.Machine Sys2Proof.Claims

/-- Settles O21: a word below `2^56` has OP 0, which pushes nothing, so the room for no word is the room it needs. -/
theorem nopOnlyAdvancesTheIndex : Obligations.NopOnlyAdvancesTheIndex := by
  refine ⟨exec_nop, encode_nop, fun s u w rest hturn hport hroom hlt => ?_⟩
  have hop : opField w = 0 := opField_of_lt hlt
  have hpush : mayPush w = 0 := by rw [mayPush, hop]; rfl
  rw [step_of_consumed hturn hport (hpush.symm ▸ hroom), runWord_of_opField_zero hop]
  rfl

/-- Settles O22: STATUS pushes the model's status word, whose fields are read off its value. -/
theorem statusPushesTheStatusWord : Obligations.StatusPushesTheStatusWord := by
  intro s
  refine ⟨statusWord s, ?_, ?_⟩
  · rw [exec_status, State.push, State.push, List.append_assoc]
    rfl
  · have hmatched := s.matched.toNat_lt
    have hhalted := s.record.halted.toNat_lt
    rw [statusWord_toNat]
    omega

end Sys2Proof.Proofs
end

section
/-! Exceptions (60_exceptions.md R170 to R176): no command and no word stops the machine; a check that fails takes its
fault, at the lowest index for a K-lane command; a fault is precise; and a halted engine keeps its record until reset. -/

namespace Sys2Proof.Machine

open Sys2Proof Sys2Proof.Claims

/-! ### Every outcome is a next state (R170, R172) -/

theorem exec_answers (i : Instr) (s : State) : ∃ t, exec i s = .next t := by
  rw [exec_eq]
  cases hcheck : operandFault s.cfg.k i with
  | none => exact ⟨_, runCommand_of_none hcheck⟩
  | some verdict => exact ⟨_, runCommand_of_some hcheck⟩

theorem completeCycle_exec_answers (i : Instr) (s : State) : ∃ t, completeCycle (exec i s) = .next t := by
  obtain ⟨t, ht⟩ := exec_answers i s
  exact ⟨t.advance, by rw [ht, completeCycle]⟩

/-- A consumed word is answered: discarded, run as STATUS, faulted by its decoding, or executed (R82, R175). -/
theorem runWord_answers (w : CmdWord) (s : State) : ∃ t, runWord w s = .next t := by
  rw [runWord]
  split
  · split
    · exact completeCycle_exec_answers .status s
    · exact ⟨_, rfl⟩
  · split
    · exact ⟨_, rfl⟩
    · exact completeCycle_exec_answers _ s

theorem engineStep_answers (u : State) : ∃ t, engineStep u = .next t := by
  rw [engineStep]
  split
  · exact ⟨_, rfl⟩
  · split
    · exact runWord_answers _ _
    · exact ⟨_, rfl⟩

theorem step_answers (s : State) : ∃ t, step s = .next t := by
  rw [step, machineStep]
  split
  · exact engineStep_answers s
  · exact ⟨_, rfl⟩
  · exact ⟨_, rfl⟩
  · exact ⟨_, rfl⟩
  · exact engineStep_answers _

/-! ### Checks that fail (R171, R173, R174) -/

theorem exec_of_operandFault {i : Instr} {s : State} {c : Cause} {lane : Byte}
    (h : operandFault s.cfg.k i = some (c, lane)) : exec i s = .next (faulted s c.code lane i.op.code) :=
  (exec_eq i s).trans (runCommand_of_some h)

theorem laneFault_of_le {k : Nat} {lane : Byte} (h : k ≤ lane.toNat) : laneFault k lane = some (.laneRange, lane) := by
  simp [laneFault, laneInRange, h]

/-- With a legal chunk the lane range is the only operand check of HDATA (30_encoding.md R78). -/
theorem operandFault_hdata_of_legalChunk (k : Nat) (lane : Byte) {n : BitVec 3} {data : Word}
    (legal : LegalChunk n data) : operandFault k (.hdata lane n data) = laneFault k lane := by
  obtain ⟨hn, hdata⟩ := chunkChecks_of_legalChunk legal
  simp [operandFault, chunkFault, hn, hdata]

section SingleLane

variable {s : State} {lane : Byte} (hlane : lane.toNat < s.cfg.k)

include hlane

theorem exec_hinit_of_unwritten (h : s.slotWords lane.toNat = none) :
    exec (.hinit lane) s = .next (faulted s 5 lane 0x10) := by
  rw [exec_of_wellFormed (i := .hinit lane) (laneInRange_of_lt hlane), effectOf, hinitEffect, h]
  rfl

theorem exec_hfinal_of_not_active (h : s.activeLane lane.toNat = none) :
    exec (.hfinal lane) s = .next (faulted s 6 lane 0x12) := by
  rw [exec_of_wellFormed (i := .hfinal lane) (laneInRange_of_lt hlane), effectOf, hfinalEffect, h]
  rfl

theorem exec_hdata_of_not_active (h : s.activeLane lane.toNat = none) {n : BitVec 3} {data : Word}
    (legal : LegalChunk n data) : exec (.hdata lane n data) s = .next (faulted s 6 lane 0x11) := by
  rw [exec_of_wellFormed (hdata_wellFormed hlane legal), effectOf, hdataEffect, h]
  rfl

theorem exec_trd_of_unwritten (h : s.tagAt lane.toNat = none) :
    exec (.trd lane) s = .next (faulted s 7 lane 0x21) := by
  rw [exec_of_wellFormed (i := .trd lane) (laneInRange_of_lt hlane), effectOf, trdEffect, h]
  rfl

end SingleLane

section LowestIndex

variable {s : State} {i : Nat}

theorem exec_kinit_of_error (h : collect s.slotWords s.cfg.k = .error i) :
    exec .kinit s = .next (faulted s 5 (BitVec.ofNat 8 i) 0x31) := by
  rw [exec_of_wellFormed (i := .kinit) rfl, effectOf, kinitEffect, h]
  rfl

theorem exec_kdata_of_error (h : collect s.activeLane s.cfg.k = .error i) {n : BitVec 3} {data : Word}
    (legal : LegalChunk n data) : exec (.kdata n data) s = .next (faulted s 6 (BitVec.ofNat 8 i) 0x32) := by
  rw [exec_of_wellFormed (kdata_wellFormed s.cfg.k legal), effectOf, kdataEffect, h]
  rfl

theorem exec_kadd_of_error (h : collect s.activeLane s.cfg.k = .error i) :
    exec .kadd s = .next (faulted s 6 (BitVec.ofNat 8 i) 0x33) := by
  rw [exec_of_wellFormed (i := .kadd) rfl, effectOf, kaddEffect, h]
  rfl

theorem exec_ktest_of_error (h : collect s.activeLane s.cfg.k = .error i) :
    exec .ktest s = .next (faulted s 6 (BitVec.ofNat 8 i) 0x34) := by
  rw [exec_of_wellFormed (i := .ktest) rfl, effectOf, ktestEffect, h]
  rfl

theorem exec_badd_of_error (h : collect s.tagAt s.cfg.k = .error i) :
    exec .badd s = .next (faulted s 7 (BitVec.ofNat 8 i) 0x22) := by
  rw [exec_of_wellFormed (i := .badd) rfl, effectOf, baddEffect, h]
  rfl

theorem exec_btest_of_error (h : collect s.tagAt s.cfg.k = .error i) :
    exec .btest s = .next (faulted s 7 (BitVec.ofNat 8 i) 0x23) := by
  rw [exec_of_wellFormed (i := .btest) rfl, effectOf, btestEffect, h]
  rfl

/-- The check of KDATA, KADD and KTEST stops at the lowest lane that is not ACTIVE. -/
theorem collect_activeLane_error (hi : i < s.cfg.k) (hbelow : ∀ j < i, ∃ r, s.lanes[j]? = some (.active r))
    (hat : ∀ r, s.lanes[i]? ≠ some (.active r)) : collect s.activeLane s.cfg.k = .error i := by
  refine collect_error.mpr ⟨hi, activeLane_eq_none.mpr hat, fun j hj => ?_⟩
  obtain ⟨r, hr⟩ := hbelow j hj
  exact Option.isSome_iff_exists.mpr ⟨r, activeLane_eq_some.mpr hr⟩

/-- The check of BADD and BTEST stops at the lowest tag not written. -/
theorem collect_tagAt_error (hi : i < s.cfg.k) (hbelow : ∀ j < i, ∃ tag, s.tags[j]? = some (some tag))
    (hat : ∀ tag, s.tags[i]? ≠ some (some tag)) : collect s.tagAt s.cfg.k = .error i := by
  refine collect_error.mpr ⟨hi, tagAt_eq_none.mpr hat, fun j hj => ?_⟩
  obtain ⟨tag, htag⟩ := hbelow j hj
  exact Option.isSome_iff_exists.mpr ⟨tag, tagAt_eq_some.mpr htag⟩

end LowestIndex

/-! ### The halted state (R175, R176) -/

/-- A word that halts a running engine raised a fault, in its decoding or in its execution, and the fault is all it did
but for the index (R172). -/
theorem runWord_of_halting {w : CmdWord} {s t : State} (h : runWord w s = .next t)
    (running : s.record.halted = false) (halts : t.record.halted = true) :
    ∃ c lane, t = (s.takeFault c lane (opField w)).advance := by
  obtain ⟨u, rfl, rfl | ⟨c, lane, rfl⟩ | ⟨i, hop, hx⟩⟩ := runWord_leaves h
  · exact absurd halts (by simp [running])
  · exact ⟨c, lane, rfl⟩
  · obtain hsame | ⟨c, lane, rfl⟩ := hx.record_eq_or_fault
    · exact absurd halts (by simp [hsame, running])
    · exact ⟨c, lane, by rw [hop]⟩

/-- A halted engine runs STATUS (R175). -/
theorem runWord_statusCommand_of_halted {s : State} (halted : s.record.halted = true) :
    runWord statusCommand s = .next ((s.push (statusWord s)).push s.record.fidx).advance := by
  rw [runWord, if_pos halted, if_pos rfl, exec_status, completeCycle]

/-- No word takes a halted engine out of its fault (R176). -/
theorem runWord_record_of_halted {w : CmdWord} {s t : State} (h : runWord w s = .next t)
    (halted : s.record.halted = true) : t.record = s.record := by
  by_cases hw : w = statusCommand
  · subst hw
    cases (runWord_statusCommand_of_halted halted).symm.trans h
    rfl
  · cases (runWord_of_halted halted hw).symm.trans h
    rfl

theorem engineStep_record_of_halted {u t : State} (h : engineStep u = .next t) (halted : u.record.halted = true) :
    t.record = u.record := by
  obtain ⟨-, rfl⟩ | ⟨w, rest, -, ⟨-, rfl⟩ | ⟨-, hrun⟩⟩ := engineStep_cases h
  · rfl
  · rfl
  · exact runWord_record_of_halted (s := { u with port := rest }) hrun halted

@[simp] theorem State.readByHost_record (s : State) : s.readByHost.record = s.record := by
  simp only [State.readByHost]; split <;> rfl

end Sys2Proof.Machine

namespace Sys2Proof.Proofs

open Sys2Proof Sys2Proof.Machine Sys2Proof.Claims

/-- Settles O4: the command cycle answers a next state on each of its paths, and so does each of the host's moves. -/
theorem everyStepAnswersANextState : Obligations.EveryStepAnswersANextState := ⟨exec_answers, step_answers⟩

/-- Settles O37: out of range the operand check takes the fault before the command's effect; in range the effect finds
no value where its state check looks. -/
theorem singleLaneChecksFault : Obligations.SingleLaneChecksFault := by
  refine ⟨fun s lane hlane => ?_, fun s lane hlane => ⟨fun hslot => ?_, fun hidle => ?_, fun htag => ?_⟩⟩
  · have hrange := laneFault_of_le hlane
    exact ⟨exec_of_operandFault (i := .hinit lane) hrange, exec_of_operandFault (i := .hfinal lane) hrange,
      exec_of_operandFault (i := .trd lane) hrange, fun data => exec_of_operandFault (i := .twr lane data) hrange,
      fun h data => exec_of_operandFault (i := .kwr lane h data) hrange, fun n data legal =>
      exec_of_operandFault (i := .hdata lane n data) ((operandFault_hdata_of_legalChunk _ _ legal).trans hrange)⟩
  · exact exec_hinit_of_unwritten hlane (slotWords_eq_none.mpr hslot)
  · have hnone := activeLane_eq_none.mpr hidle
    exact ⟨exec_hfinal_of_not_active hlane hnone, fun _ _ => exec_hdata_of_not_active hlane hnone⟩
  · exact exec_trd_of_unwritten hlane (tagAt_eq_none.mpr htag)

/-- Settles O38: the check in increasing index order fails at the first index without a value. -/
theorem lowestFailingIndexIsReported : Obligations.LowestFailingIndexIsReported := by
  refine fun s i hi => ⟨fun hbelow hat => ?_, fun hbelow hat => ?_, fun hbelow hat => ?_⟩
  · exact exec_kinit_of_error
      (collect_error.mpr ⟨hi, slotWords_eq_none.mpr hat, fun j hj => slotWords_isSome.mpr (hbelow j hj)⟩)
  · have herror := collect_activeLane_error hi hbelow hat
    exact ⟨exec_kadd_of_error herror, exec_ktest_of_error herror, fun _ _ => exec_kdata_of_error herror⟩
  · have herror := collect_tagAt_error hi hbelow hat
    exact ⟨exec_badd_of_error herror, exec_btest_of_error herror⟩

/-- Settles O39: a fault verdict is taken as it stands; and of what a command cycle can leave, only a fault halts a
running engine. -/
theorem faultsArePrecise : Obligations.FaultsArePrecise := by
  refine ⟨fun s u w rest cause lane hturn hport hroom running hdec => ?_,
    fun s u t w rest hturn hport running h halts => ?_⟩
  · rw [step_of_consumed hturn hport hroom, runWord_of_decode_fault (s := { u with port := rest }) running hdec]
    rfl
  · rw [step_of_engineTurn hturn] at h
    obtain ⟨-, rfl⟩ | ⟨w', rest', hport', ⟨-, rfl⟩ | ⟨-, hrun⟩⟩ := engineStep_cases h
    · exact absurd halts (by simp [running])
    · exact absurd halts (by simp [running])
    · obtain ⟨rfl, rfl⟩ := List.cons.inj (hport.symm.trans hport')
      obtain ⟨c, lane, rfl⟩ := runWord_of_halting hrun running halts
      exact ⟨c, lane, rfl⟩

/-- Settles O40: the engine has room, so it consumes the word, and runs it only if it is STATUS. -/
theorem haltedEngineOnlyAnswersStatus : Obligations.HaltedEngineOnlyAnswersStatus := by
  intro s u w rest hturn hport hroom halted
  rw [step_of_consumed hturn hport hroom]
  by_cases hw : w = statusCommand
  · rw [hw, runWord_statusCommand_of_halted (s := { u with port := rest }) halted, State.push, State.push,
      List.append_assoc]
    rfl
  · rw [runWord_of_halted (s := { u with port := rest }) halted hw]
    exact congrArg _ (if_neg hw).symm

/-- Settles O41: no word and no move of the host but reset writes the record of a halted engine. -/
theorem onlyResetLeavesTheHaltedState : Obligations.OnlyResetLeavesTheHaltedState := by
  intro s t halted h
  obtain ⟨u, hturn, he⟩ | ⟨w, ms, -, rfl⟩ | ⟨ms, -, rfl⟩ | ⟨ms, hhost, rfl⟩ := step_cases h
  · have hrecord : u.record = s.record := by rw [EngineTurn_eq hturn]
    exact .inl ((engineStep_record_of_halted he (hrecord ▸ halted)).trans hrecord)
  · exact .inl rfl
  · exact .inl (State.readByHost_record _)
  · exact .inr ⟨ms, hhost, rfl⟩

end Sys2Proof.Proofs
end

section
/-! The two ports and the end of a run (60_exceptions.md R184 to R190): the room a word's OP needs, the responses by
command, the host's moves, and that an ended run keeps its observation. -/

namespace Sys2Proof.Machine

open Sys2Proof Sys2Proof.Claims

/-! ### Room for a word's responses (R185) -/

/-- The room test reads the table of R184 at the word's OP code. -/
theorem mayPush_eq_pushLimit (w : CmdWord) : mayPush w = pushLimit (w.toNat / 2 ^ 56) := by
  rw [← opField_toNat]
  cases hop : Op.ofCode? (opField w) with
  | none =>
    have hcodes := (Proofs.ofCode?_eq_none (opField w)).mp hop
    have hzero : pushLimit (opField w).toNat = 0 := by
      rw [pushLimit, if_neg (by omega), if_neg (by omega)]
    rw [mayPush, hop, hzero]
  | some op =>
    rw [mayPush, hop, ← Op.code_of_ofCode? hop]
    cases op <;> rfl

/-! ### The host's moves (R184, R186, R189) -/

section HostMoves

variable {s : State} {ms : List HostMove}

theorem step_of_issue {w : CmdWord} (hhost : s.host = .issue w :: ms) :
    step s = .next { s with host := ms, port := s.port ++ [w] } := by
  rw [step, machineStep, hhost]
  rfl

theorem step_of_read (hhost : s.host = .readResponse :: ms) :
    step s = .next (State.readByHost { s with host := ms }) := by
  rw [step, machineStep, hhost]

end HostMoves

theorem State.readByHost_of_resp_cons {s : State} {w : Word} {ws : List Word} (h : s.resp = w :: ws) :
    s.readByHost = { s with resp := ws, delivered := s.delivered ++ [w] } := by
  rw [State.readByHost, h]

theorem State.readByHost_of_no_resp {s : State} (h : s.resp = []) : s.readByHost = s := by
  rw [State.readByHost, h]

@[simp] theorem State.readByHost_port (s : State) : s.readByHost.port = s.port := by
  simp only [State.readByHost]; split <;> rfl

@[simp] theorem State.readByHost_host (s : State) : s.readByHost.host = s.host := by
  simp only [State.readByHost]; split <;> rfl

/-! ### The end of a run (R190) -/

/-- Every word that the moves `ms` present comes after a reset. -/
def IssuesOnlyAfterReset (ms : List HostMove) : Prop :=
  ∀ (pre post : List HostMove) (w : CmdWord), ms = pre ++ .issue w :: post → .assertReset ∈ pre

theorem issuesOnlyAfterReset_nil : IssuesOnlyAfterReset [] := by
  simp [IssuesOnlyAfterReset]

theorem issuesOnlyAfterReset_cons {m : HostMove} {ms : List HostMove} :
    IssuesOnlyAfterReset (m :: ms) ↔ (∀ w, m ≠ .issue w) ∧ (m = .assertReset ∨ IssuesOnlyAfterReset ms) := by
  constructor
  · refine fun h => ⟨fun w hm => ?_, or_iff_not_imp_left.mpr fun hm pre post w heq => ?_⟩
    · exact absurd (h [] ms w (by rw [hm]; rfl)) List.not_mem_nil
    · have hmem := h (m :: pre) post w (by rw [heq]; rfl)
      exact (List.mem_cons.mp hmem).resolve_left (Ne.symm hm)
  · rintro ⟨hissue, hrest⟩ pre post w heq
    cases pre with
    | nil => exact absurd (List.cons.inj heq).1 (hissue w)
    | cons p pre =>
      obtain ⟨rfl, hms⟩ := List.cons.inj heq
      obtain rfl | hrest := hrest
      · exact List.mem_cons_self
      · exact List.mem_cons_of_mem _ (hrest pre post w hms)

theorem deliversNoMore_iff {ms : List HostMove} : deliversNoMore ms = true ↔ IssuesOnlyAfterReset ms := by
  induction ms with
  | nil => simp [deliversNoMore, issuesOnlyAfterReset_nil]
  | cons m ms ih =>
    rw [issuesOnlyAfterReset_cons, ← ih]
    cases m <;> simp [deliversNoMore]

theorem observation_of_ended {s : State} (h : s.ended = true) : s.observation = some s.observe := if_pos h

/-- A host's read changes no observation: what was pushed and the engine's state are the same. -/
@[simp] theorem observe_readByHost (s : State) : s.readByHost.observe = s.observe := by
  rw [State.observe, pushed_readByHost, State.readByHost]
  split <;> rfl

/-- The observation does not hold the host's coming moves. -/
theorem observe_of_engineTurn {s u : State} (h : s.EngineTurn u) : u.observe = s.observe := by
  rw [EngineTurn_eq h]
  rfl

/-- With the turn the engine's, an ended run's engine finds no word, and is still at the end. -/
theorem ended_of_engineTurn {s u : State} (h : s.EngineTurn u) (hended : s.ended = true) : u.ended = true := by
  obtain ⟨-, rfl⟩ | ⟨ms, hhost, rfl⟩ := h
  · exact hended
  · obtain ⟨hport, hmoves⟩ := (ended_iff s).mp hended
    rw [hhost, deliversNoMore] at hmoves
    exact (ended_iff _).mpr ⟨hport, hmoves⟩

theorem engineStep_of_ended {u : State} (h : u.ended = true) : engineStep u = .next u := by
  obtain ⟨hport, -⟩ := (ended_iff u).mp h
  rw [engineStep, hport]

/-- Only the host's reset takes an ended run out of its end or changes what it is observed as (R190). -/
theorem step_of_ended {s t : State} (hended : s.ended = true) (h : step s = .next t)
    (hreset : ∀ ms, s.host ≠ .assertReset :: ms) : t.ended = true ∧ t.observe = s.observe := by
  obtain ⟨hport, hmoves⟩ := (ended_iff s).mp hended
  obtain ⟨u, hturn, he⟩ | ⟨w, ms, hhost, -⟩ | ⟨ms, hhost, rfl⟩ | ⟨ms, hhost, -⟩ := step_cases h
  · have hu := ended_of_engineTurn hturn hended
    cases (engineStep_of_ended hu).symm.trans he
    exact ⟨hu, observe_of_engineTurn hturn⟩
  · rw [hhost, deliversNoMore] at hmoves
    exact absurd hmoves Bool.false_ne_true
  · rw [hhost, deliversNoMore] at hmoves
    exact ⟨(ended_iff _).mpr ⟨(State.readByHost_port _).trans hport, (State.readByHost_host _).symm ▸ hmoves⟩,
      observe_readByHost _⟩
  · exact absurd hhost (hreset ms)

end Sys2Proof.Machine

namespace Sys2Proof.Proofs

open Sys2Proof Sys2Proof.Machine Sys2Proof.Claims

/-- Settles O8: the numbers of the claim are the model's room test, which decides whether the word is consumed. -/
theorem engineHoldsWithoutRoom : Obligations.EngineHoldsWithoutRoom := by
  intro s u t w rest hturn hport h
  obtain ⟨hword, -⟩ := engineTurn_ci hturn h
  obtain ⟨hconsumed, hheld⟩ := hword w rest hport
  rw [hasRoom_iff, mayPush_eq_pushLimit] at hconsumed
  rw [← Bool.not_eq_true, hasRoom_iff, mayPush_eq_pushLimit] at hheld
  refine ⟨fun n hn => ⟨fun hlack => ?_, fun hfits => ?_⟩, fun hnone => ?_⟩
  · obtain ⟨hsame, -⟩ := hheld fun hroom => absurd (hroom n hn) (Nat.not_le.mpr hlack)
    exact hsame
  · obtain ⟨-, hrest⟩ := hconsumed fun depth hdepth => Option.some.inj (hn.symm.trans hdepth) ▸ hfits
    exact hrest
  · obtain ⟨-, hrest⟩ := hconsumed fun depth hdepth => by simp [hnone] at hdepth
    exact hrest

/-- Settles O44: read off what a command can leave; the register HFINAL wrote is there because there are K of them. -/
theorem responsesAreTheTable : Obligations.ResponsesAreTheTable := by
  intro i s t htags running h
  have hok : ¬ s.record.halted = true := by simp [running]
  cases executes_of_exec h with
  | fault => exact ⟨[], (List.append_nil _).symm, (if_pos rfl).mpr rfl⟩
  | status => exact ⟨_, List.append_assoc .., (if_neg hok).mpr rfl⟩
  | hfinal inRange =>
    exact ⟨_, rfl, (if_neg hok).mpr ⟨_, rfl, List.getElem?_set_self (htags ▸ inRange)⟩⟩
  | trd _ valid => exact ⟨_, rfl, (if_neg hok).mpr ⟨_, rfl, tagAt_eq_some.mp valid⟩⟩
  | btest | ktest => exact ⟨_, rfl, (if_neg hok).mpr rfl⟩
  | _ => exact ⟨[], (List.append_nil _).symm, (if_neg hok).mpr rfl⟩

/-- Settles O53: a run at its end has no word to consume and gets none, so its steps are idle ones and reads. -/
theorem endedRunsKeepTheirObservation : Obligations.EndedRunsKeepTheirObservation := by
  refine ⟨fun s => ?_, fun s hended => ?_, fun s t hended h hreset => ?_, fun s t ms hhost h => ?_⟩
  · rw [ended_iff, deliversNoMore_iff, IssuesOnlyAfterReset]
  · rw [State.faulted, State.succeeded, hended, Bool.true_and, Bool.true_and]
    exact ⟨rfl, rfl⟩
  · obtain ⟨ht, hobserve⟩ := step_of_ended hended h hreset
    rw [observation_of_ended ht, observation_of_ended hended, hobserve]
    exact ⟨ht, rfl, rfl⟩
  · cases (step_of_read hhost).symm.trans h
    exact observe_readByHost _

/-- Settles O10: the move decides the step; a read goes by whether there is a response. -/
theorem hostMovesUseThePortsInOrder : Obligations.HostMovesUseThePortsInOrder := by
  refine ⟨fun s w ms => step_of_issue, fun s w ws ms hhost hresp => ?_, fun s ms hhost hresp => ?_⟩
  · rw [step_of_read hhost, State.readByHost_of_resp_cons (s := { s with host := ms }) hresp]
  · rw [step_of_read hhost, State.readByHost_of_no_resp (s := { s with host := ms }) hresp]

end Sys2Proof.Proofs
end

section
/-! The host's reset (70_reset_and_hazards.md R200, R201): its move is the reset of the engine with the parameters it
was built with, which keeps only the host's later moves. -/

namespace Sys2Proof.Machine

open Sys2Proof

theorem step_of_assertReset {s : State} {ms : List HostMove} (hhost : s.host = .assertReset :: ms) :
    step s = .next (State.resetByHost { s with host := ms }) := by
  rw [step, machineStep, hhost]

/-- Of the state before it, the host's reset reads the parameters and the later moves alone (log 11). -/
theorem State.resetByHost_setHost (s : State) (ms : List HostMove) :
    State.resetByHost { s with host := ms } = { State.resetWith s.cfg with host := ms } := rfl

end Sys2Proof.Machine

namespace Sys2Proof.Proofs

open Sys2Proof Sys2Proof.Machine Sys2Proof.Claims

/-- Settles O9: the move decides the step, which is the host's reset. -/
theorem resetMoveResetsTheEngine : Obligations.ResetMoveResetsTheEngine := by
  intro s ms hhost
  rw [step_of_assertReset hhost, State.resetByHost_setHost]

end Sys2Proof.Proofs
end
